-- ==== Sys2Proof/Word.lean ====
section
/-! DEFINITION. The word types of HBN-1 (00_scope R7: REG_WIDTH 32, COEFF_WIDTH 16, SAMPLE_WIDTH 8). -/

namespace Sys2Proof

/-- A register slot, a command word or a 32-bit byte address (REG_WIDTH, ADDR_WIDTH). -/
abbrev Word := BitVec 32

/-- A 16-bit pattern: a coefficient, a shift operand or result, a stride, the accumulator. -/
abbrev Half := BitVec 16

/-- A byte of memory; a sample. -/
abbrev Byte := BitVec 8

end Sys2Proof
end

