-- ==== Sys2Proof/Syntax.lean ====
section
/-! DEFINITION. The nine commands of HBN-1, one constructor per row of spec/opcode_table.json (30_encoding R103 to R105). -/

namespace Sys2Proof

/-- A decoded command. The memory and data operands are not part of it: they are latched at acceptance
(30_encoding R100, R102). `s` is SHAMT, a number from 0 to 15. -/
inductive Instr where
  | avg4
  | avg8
  | had8
  | had16
  | shl (s : Nat)
  | shr (s : Nat)
  | shrr (s : Nat)
  | sra (s : Nat)
  | srar (s : Nat)
deriving DecidableEq, Repr

/-- Why a word is ILLEGAL (30_encoding R107). The spec has one outcome, ILLEGAL; the reasons are the model's names for
its cases, and nothing in the machine depends on which one it is (log 26). -/
inductive Illegal where
  /-- OP is 0x0 or 0x6 to 0xF. -/
  | reservedOp
  /-- A bit that must be 0 is 1: any of 31:4 with OP 0x1 to 0x4, any of 31:11 with OP 0x5. -/
  | reservedBits
  /-- A left shift with RND or SGN set. -/
  | reservedLeftShift
  /-- The bytes are not exactly one 32-bit word (30_encoding R100: there is one length). -/
  | notOneWord
deriving DecidableEq, Repr

end Sys2Proof
end

