-- ==== Sys2Proof/WellFormed.lean ====
section
/-! DEFINITION. Which terms of `Instr` are commands: SHAMT has four bits (30_encoding R101, R102). -/

namespace Sys2Proof

/-- SHAMT is 0 to 15; "A shift by 16 or more cannot be encoded" (40_shift_unit R134). -/
def Instr.wf : Instr → Bool
  | .avg4 => true
  | .avg8 => true
  | .had8 => true
  | .had16 => true
  | .shl s => decide (s < 16)
  | .shr s => decide (s < 16)
  | .shrr s => decide (s < 16)
  | .sra s => decide (s < 16)
  | .srar s => decide (s < 16)

end Sys2Proof
end

