-- ==== Sys2Proof/Decode.lean ====
section
/-! DEFINITION. The decoder of command words (30_encoding R101 to R107) and, after it, the encoder (R105, R108). -/

namespace Sys2Proof

/-! ## Fields of the command word (R101) -/

def opField (w : Word) : Nat := (w.extractLsb' 0 4).toNat
def shamtField (w : Word) : Nat := (w.extractLsb' 4 4).toNat
def dirField (w : Word) : Bool := w.getLsbD 8
def rndField (w : Word) : Bool := w.getLsbD 9
def sgnField (w : Word) : Bool := w.getLsbD 10

/-- Bits 31:4, all 0 for OP 0x1 to 0x4 (R102). -/
def aboveOp (w : Word) : Nat := (w.extractLsb' 4 28).toNat

/-- RSV, bits 31:11, all 0 for OP 0x5 (R102). -/
def rsvField (w : Word) : Nat := (w.extractLsb' 11 21).toNat

/-! ## Decoding (R106) -/

/-- The SHIFT forms by SGN, RND and DIR (R104). -/
def decodeShiftForm (sgn rnd dir : Bool) (s : Nat) : Except Illegal Instr :=
  match sgn, rnd, dir with
  | false, false, true => .ok (.shl s)
  | false, false, false => .ok (.shr s)
  | false, true, false => .ok (.shrr s)
  | true, false, false => .ok (.sra s)
  | true, true, false => .ok (.srar s)
  | false, true, true => .error .reservedLeftShift
  | true, false, true => .error .reservedLeftShift
  | true, true, true => .error .reservedLeftShift

/-- A command without fields: every bit above OP is 0 (R102). -/
def decodeFixed (w : Word) (i : Instr) : Except Illegal Instr :=
  if aboveOp w = 0 then .ok i else .error .reservedBits

/-- OP 0x5 (R106). -/
def decodeShift (w : Word) : Except Illegal Instr :=
  if rsvField w = 0 then decodeShiftForm (sgnField w) (rndField w) (dirField w) (shamtField w)
  else .error .reservedBits

/-- Decoding, total on every 32-bit word (R106). -/
def decode (w : Word) : Except Illegal Instr :=
  match opField w with
  | 1 => decodeFixed w .avg4
  | 2 => decodeFixed w .avg8
  | 3 => decodeFixed w .had8
  | 4 => decodeFixed w .had16
  | 5 => decodeShift w
  | _ => .error .reservedOp

/-- A word from its bytes, the least significant byte at the lowest address (20_memory R72). -/
def wordOfBytes (b0 b1 b2 b3 : Byte) : Word := b3 ++ b2 ++ b1 ++ b0

/-- Decoding of any bytes: a command is one 32-bit word and nothing else (R100). -/
def decodeBytes : List Byte → Except Illegal Instr
  | [b0, b1, b2, b3] => decode (wordOfBytes b0 b1 b2 b3)
  | _ => .error .notOneWord

/-- The bytes of a word, least significant first. -/
def bytesOfWord (w : Word) : List Byte :=
  [w.extractLsb' 0 8, w.extractLsb' 8 8, w.extractLsb' 16 8, w.extractLsb' 24 8]

/-- The command the decoder reads from a word of the opcode table; bits at and above `nbits` are 0. -/
def decodeTableWord (nbits w : Nat) : Option Instr :=
  match decodeBytes (bytesOfWord (BitVec.ofNat 32 (w % 2 ^ nbits))) with
  | .ok i => some i
  | .error _ => none

/-! ## Encoding (R105, R108) -/

/-- One row of the match and mask table of R105. -/
structure Row where
  mnemonic : String
  fixed : Word
  mask : Word
deriving DecidableEq, Repr

/-- The table of R105, row for row. -/
def commandTable : List Row :=
  [⟨"AVG4", 0x00000001, 0xFFFFFFFF⟩,
   ⟨"AVG8", 0x00000002, 0xFFFFFFFF⟩,
   ⟨"HAD8", 0x00000003, 0xFFFFFFFF⟩,
   ⟨"HAD16", 0x00000004, 0xFFFFFFFF⟩,
   ⟨"SHL", 0x00000105, 0xFFFFFF0F⟩,
   ⟨"SHR", 0x00000005, 0xFFFFFF0F⟩,
   ⟨"SHRR", 0x00000205, 0xFFFFFF0F⟩,
   ⟨"SRA", 0x00000405, 0xFFFFFF0F⟩,
   ⟨"SRAR", 0x00000605, 0xFFFFFF0F⟩]

/-- `w` is the command of the row: `(w & mask) == match` (R105). -/
def Row.isWord (r : Row) (w : Word) : Bool := w &&& r.mask == r.fixed

/-- The command's mnemonic (R108). -/
def Instr.mnemonic : Instr → String
  | .avg4 => "AVG4"
  | .avg8 => "AVG8"
  | .had8 => "HAD8"
  | .had16 => "HAD16"
  | .shl _ => "SHL"
  | .shr _ => "SHR"
  | .shrr _ => "SHRR"
  | .sra _ => "SRA"
  | .srar _ => "SRAR"

/-- The word of a shift, `match | (s << 4)` (R108). -/
def shiftWord (fixed : Word) (s : Nat) : Word := fixed ||| (BitVec.ofNat 32 s <<< 4)

/-- The command word (R105, R108). -/
def encode : Instr → Word
  | .avg4 => 0x00000001
  | .avg8 => 0x00000002
  | .had8 => 0x00000003
  | .had16 => 0x00000004
  | .shl s => shiftWord 0x00000105 s
  | .shr s => shiftWord 0x00000005 s
  | .shrr s => shiftWord 0x00000205 s
  | .sra s => shiftWord 0x00000405 s
  | .srar s => shiftWord 0x00000605 s

end Sys2Proof
end

