-- ==== Sys2Proof/Config.lean ====
section
/-! DEFINITION. The parameters of 00_scope R7 that have a value, the values State.reset takes for the OPEN ones, and the
free values. The OPEN parameters themselves are data of State (log 4), so that a claim over every state holds for every
value of them. -/

namespace Sys2Proof

/-- ADDR_WIDTH = 32: byte addresses are 0 to 2^32 − 1 (20_memory R70). -/
def Config.addressSpace : Nat := 2 ^ 32

/-- TILE_PITCH, in elements (20_memory R75). -/
def Config.tilePitch : Nat := 64

/-- The size of a register window, in bytes (10_state R33). -/
def Config.windowBytes : Nat := 32

/-- DESIGN CHOICE (log 4): BLOCK_BASE of the one unit of State.reset; 32-byte aligned, as 00_scope R7 asks. -/
def Config.resetBase : Nat := 0xF0000000

/-- DESIGN CHOICE (log 5): what a byte of memory that nothing has written reads as. -/
def Config.unwritten : Byte := 0

/-- Free values (log 12): the bytes of an aborted command's output region after a reset (70_reset R251). -/
opaque Config.freeByte : Nat → Byte

/-- Free values (log 7): the contents of the working buffer W between commands (10_state R48). -/
opaque Config.freeWork : Nat → Vector Half 256

end Sys2Proof
end

