-- ==== Sys2Proof/Machine/State.lean ====
section
/-! DEFINITION. The machine's state: one record per HBN unit (10_state), the one memory (20_memory R90), the OPEN
parameters as data, and the model's own fields that hold the steps still to come (log 1). -/

namespace Sys2Proof.Machine

open Sys2Proof

/-- ENG.phase (10_state R32). -/
inductive Phase where
  | idle
  | busy
deriving DecidableEq, Repr

/-- The command latch L (10_state R46). -/
structure Latch where
  op : Instr
  src : Word
  dst : Word
  stride : Half
  operand : Half
deriving DecidableEq, Repr

/-- The working buffer W: 256 entries of 16 bits (10_state R48). -/
abbrev Work := Vector Half 256

/-- One HBN unit: its register window, its flags and its internal storage (10_state; 60_exceptions R231).
STATUS.BUSY is `phase`, CMD and slot 0x1C hold nothing, and the reserved bits of STRIDE, OPERAND and RESULT are not
stored: they read 0. -/
structure Inst where
  /-- BLOCK_BASE, an OPEN parameter, the unit's only identity (60_exceptions R231, log 4). -/
  base : Nat
  phase : Phase
  done : Bool
  illegal : Bool
  collide : Bool
  src : Word
  dst : Word
  stride : Half
  operand : Half
  result : Half
  latch : Latch
  work : Work
  acc : Half
deriving DecidableEq, Repr

/-- Memory: the bytes that differ from what an unlisted byte reads as, by strictly rising address. -/
abbrev Memory := List Host.Cell

/-- `size` byte addresses from `base`. -/
structure Region where
  base : Nat
  size : Nat
deriving DecidableEq, Repr

/-- Who takes a step (10_state R30; the platform's reset input, 70_reset R250). Units are counted from 0. -/
inductive Agent where
  | host
  | engine (k : Nat)
  | reset (k : Nat)
deriving DecidableEq, Repr

inductive AccessKind where
  | read
  | write
deriving DecidableEq, Repr

/-- One access of an agent: what MF4 and MF5 record (60_exceptions R222). -/
structure Access where
  agent : Agent
  kind : AccessKind
  addr : Nat
  bytes : Nat
deriving DecidableEq, Repr

/-- One host step (30_encoding R109, R110). A register access is an access to the window's address. `wait base` is WAIT
on the unit whose window is at `base`. An access of 0 bytes is admitted, without an effect on the block (log 27). -/
inductive HostStep where
  | write (addr bytes value : Nat)
  | read (addr bytes : Nat)
  | wait (base : Nat)
deriving DecidableEq, Repr

/-- The model faults (60_exceptions R222): the spec's "undefined behavior by contract". Each ends the run. -/
inductive Fault where
  /-- An element of the command is outside memory. Raised by acceptance, and by a completion whose latch breaks the
  bound (log 9). Safe: the run stops. -/
  | mf1 (L : Latch)
  /-- SRC or DST is odd for HAD8 or HAD16. Raised as mf1 is. Safe. -/
  | mf2 (L : Latch)
  /-- STRIDE is below the block size. Raised as mf1 is. Safe. -/
  | mf3 (L : Latch)
  /-- An access breaks a running command's exclusive ownership. Raised by a host memory access and by a completion.
  Safe. -/
  | mf4 (a : Access)
  /-- A host access to a register window that is not an aligned 32-bit access. Raised by a host access. Safe. -/
  | mf5 (a : Access)
deriving DecidableEq, Repr

/-- Where the model has no meaning to give. -/
inductive Refusal where
  /-- An instruction without a meaning, by its mnemonic. Raised by no arm of `exec`. Safe. -/
  | notModelled (mnemonic : String)
  /-- A host access to an address that is neither a window nor ordinary memory: the spec does not say what answers it
  (log 13). Raised by a host access. Safe: the run stops. -/
  | hostUnbacked (a : Access)
  /-- The selected unit does not exist. Raised by a completion in a state no run reaches (log 19). Safe. -/
  | noUnit (k : Nat)
deriving DecidableEq, Repr

/-- The machine. -/
structure State where
  /-- MEM_ADMIT: the ordinary memory (00_scope R7, OPEN; log 4). -/
  memAdmit : List Region
  /-- The units, NUM_INSTANCES of them (00_scope R7, OPEN; log 4). -/
  insts : List Inst
  /-- The one memory (20_memory R90). -/
  mem : Memory
  /-- The model's own: the host's steps to come (log 1). -/
  host : List HostStep
  /-- The model's own: the global order of steps (20_memory R90) as far as it is fixed (log 1, log 2). -/
  turns : List Agent
  /-- The model's own: the unit whose engine `exec` moves (log 3). -/
  sel : Nat
  /-- The model's own: the value the last host read returned (log 16). -/
  hostRead : Nat
  /-- The model's own: how many free values have been drawn (log 7, log 12). -/
  fresh : Nat
deriving DecidableEq, Repr

/-- DESIGN CHOICE (log 6): the latch at reset; the spec leaves it unspecified, and acceptance loads it before it is read. -/
def Latch.reset : Latch := { op := .avg4, src := 0, dst := 0, stride := 0, operand := 0 }

/-- A unit after reset (10_state R52). DESIGN CHOICE (log 6): W, ACC and the latch, which the spec leaves unspecified. -/
def Inst.reset (base : Nat) : Inst :=
  { base := base, phase := .idle, done := false, illegal := false, collide := false, src := 0, dst := 0, stride := 0,
    operand := 0, result := 0, latch := Latch.reset, work := Vector.replicate 256 0, acc := 0 }

/-- The machine after reset, on a platform with the windows `bases` and the ordinary memory `memAdmit`. -/
def State.resetWith (bases : List Nat) (memAdmit : List Region) : State :=
  { memAdmit := memAdmit, insts := bases.map Inst.reset, mem := [], host := [], turns := [], sel := 0, hostRead := 0, fresh := 0 }

/-- DESIGN CHOICE (log 4): one unit, and every address but its window's is ordinary memory. -/
def State.reset : State :=
  State.resetWith [Config.resetBase]
    [⟨0, Config.resetBase⟩,
     ⟨Config.resetBase + Config.windowBytes, Config.addressSpace - (Config.resetBase + Config.windowBytes)⟩]

end Sys2Proof.Machine
end

