-- ==== Sys2Proof/Machine/Ops.lean ====
section
/-! DEFINITION. The operations over memory, the registers of a window and the error events. -/

namespace Sys2Proof.Machine

open Sys2Proof

/-! ## Width functions (00_scope R9) -/

/-- `wrap_16`, and `trunc_16` of an integer, as a 16-bit pattern. -/
def wrap16 (v : Int) : Half := BitVec.ofInt 16 v

/-- `sext_16`: the signed value of a pattern. -/
def sext16 (x : Half) : Int := x.toInt

/-- `zext`: the unsigned value of a pattern. -/
def zext {w : Nat} (x : BitVec w) : Nat := x.toNat

/-! ## Memory (20_memory R70, R72) -/

/-- The canonical form: strictly rising addresses, and no entry equal to what an unlisted byte reads as. -/
def Memory.wf : Memory → Bool
  | [] => true
  | [c] => c.2 != Config.unwritten
  | c :: d :: m => decide (c.1 < d.1) && (c.2 != Config.unwritten) && Memory.wf (d :: m)

/-- MemRead(a, 1). -/
def Memory.read : Memory → Nat → Byte
  | [], _ => Config.unwritten
  | c :: m, a => if c.1 = a then c.2 else Memory.read m a

/-- MemWrite(a, 1, b), keeping the canonical form. -/
def Memory.write : Memory → Nat → Byte → Memory
  | [], a, b => if b = Config.unwritten then [] else [(a, b)]
  | c :: m, a, b =>
    if a < c.1 then (if b = Config.unwritten then c :: m else (a, b) :: c :: m)
    else if a = c.1 then (if b = Config.unwritten then m else (a, b) :: m)
    else c :: Memory.write m a b

/-- MemRead(a, n), little-endian (R72). -/
def Memory.readBytes (m : Memory) (a : Nat) : Nat → Nat
  | 0 => 0
  | n + 1 => (m.read a).toNat + 256 * Memory.readBytes m (a + 1) n

/-- MemWrite(a, n, v), little-endian (R72): the n low bytes of v. -/
def Memory.writeBytes (m : Memory) (a : Nat) (n v : Nat) : Memory :=
  match n with
  | 0 => m
  | k + 1 => Memory.writeBytes (m.write a (BitVec.ofNat 8 v)) (a + 1) k (v / 256)

/-- A coefficient element at `a`, as a pattern (R72). -/
def Memory.readHalf (m : Memory) (a : Nat) : Half := BitVec.ofNat 16 (m.readBytes a 2)

/-- Store a coefficient element (R72). -/
def Memory.writeHalf (m : Memory) (a : Nat) (x : Half) : Memory := m.writeBytes a 2 x.toNat

/-- The store phase: each element once. The order among the writes is unspecified and cannot be observed (R83). -/
def Memory.storeHalves (m : Memory) : List (Nat × Half) → Memory
  | [] => m
  | c :: cs => (Memory.storeHalves m cs).writeHalf c.1 c.2

/-- Write the free values numbered from `n` to the bytes of `as` (70_reset R251). -/
def Memory.scramble (m : Memory) (n : Nat) : List Nat → Memory
  | [] => m
  | a :: as => Memory.scramble (m.write a (Config.freeByte n)) (n + 1) as

/-! ## Regions -/

/-- `a` is one of the region's addresses. -/
def Region.holds (r : Region) (a : Nat) : Bool := decide (r.base ≤ a) && decide (a < r.base + r.size)

/-- `a` is ordinary memory: in the address space and in MEM_ADMIT (R70, R76). -/
def admits (memAdmit : List Region) (a : Nat) : Bool :=
  decide (a < Config.addressSpace) && memAdmit.any (fun r => r.holds a)

/-- The `n` byte addresses from `a`. -/
def bytesFrom (a n : Nat) : List Nat := (List.range n).map (fun i => a + i)

/-- The window of a unit, 32 bytes (10_state R33). -/
def Inst.window (e : Inst) : Region := ⟨e.base, Config.windowBytes⟩

/-! ## Units of the state -/

def State.unit? (s : State) (k : Nat) : Option Inst := s.insts[k]?

def State.setUnit (s : State) (k : Nat) (e : Inst) : State := { s with insts := s.insts.set k e }

def Inst.busy (e : Inst) : Bool := e.phase == .busy

/-! ## Error events (60_exceptions R220, R221)

The block has no trap: this is the whole of what an error does. Recovery is the host's write-1-to-clear
(R226, `Inst.writeStatus`). -/

inductive ErrorEvent where
  /-- E1: an illegal word, written while idle. -/
  | illegal
  /-- E2: any word, written while busy. -/
  | collide
deriving DecidableEq, Repr

/-- An event sets its own sticky bit and nothing else (R221). -/
def Inst.raiseEvent (e : Inst) : ErrorEvent → Inst
  | .illegal => { e with illegal := true }
  | .collide => { e with collide := true }

end Sys2Proof.Machine
end

