-- ==== Sys2Proof/Machine/Flags.lean ====
section
/-! DEFINITION. STATUS and the other slots of the register window (10_state R33 to R44). -/

namespace Sys2Proof.Machine

open Sys2Proof

/-! ## Offsets of the window (R33) -/

inductive Slot where
  | cmd
  | status
  | src
  | dst
  | stride
  | operand
  | result
  | reserved
deriving DecidableEq, Repr

/-- The byte offset of a slot. -/
def Slot.offset : Slot → Nat
  | .cmd => 0x00
  | .status => 0x04
  | .src => 0x08
  | .dst => 0x0C
  | .stride => 0x10
  | .operand => 0x14
  | .result => 0x18
  | .reserved => 0x1C

/-- The slot of an aligned offset within the window. -/
def slotAt (off : Nat) : Slot :=
  match off with
  | 0x00 => .cmd
  | 0x04 => .status
  | 0x08 => .src
  | 0x0C => .dst
  | 0x10 => .stride
  | 0x14 => .operand
  | 0x18 => .result
  | _ => .reserved

/-! ## STATUS (R35) -/

/-- The value a read of STATUS returns: BUSY bit 0, DONE bit 1, ILLEGAL bit 2, COLLIDE bit 3, the rest 0. -/
def Inst.statusWord (e : Inst) : Word :=
  (0 : BitVec 28) ++ BitVec.ofBool e.collide ++ BitVec.ofBool e.illegal ++ BitVec.ofBool e.done ++ BitVec.ofBool e.busy

/-- A write of STATUS clears each of DONE, ILLEGAL and COLLIDE whose bit is 1 in `v`, and nothing else (R35). -/
def Inst.writeStatus (e : Inst) (v : Word) : Inst :=
  { e with
    done := e.done && !v.getLsbD 1
    illegal := e.illegal && !v.getLsbD 2
    collide := e.collide && !v.getLsbD 3 }

/-- DONE and phase as acceptance leaves them (R42, R43, R45). -/
def Inst.toBusy (e : Inst) : Inst := { e with done := false, phase := .busy }

/-- DONE and phase as completion leaves them (R42, R43, R47). -/
def Inst.toIdle (e : Inst) : Inst := { e with phase := .idle, done := true }

/-! ## Register reads and writes (R34 to R41) -/

/-- The value a read of a slot returns. No read has a side effect. -/
def Inst.readSlot (e : Inst) : Slot → Word
  | .cmd => 0
  | .status => e.statusWord
  | .src => e.src
  | .dst => e.dst
  | .stride => e.stride.zeroExtend 32
  | .operand => e.operand.zeroExtend 32
  | .result => e.result.zeroExtend 32
  | .reserved => 0

/-- A write of a slot other than CMD; a write of CMD goes to the command logic (R45). RESULT and the reserved slot
ignore writes, and so do bits 31:16 of STRIDE and OPERAND. -/
def Inst.writeSlot (e : Inst) (v : Word) : Slot → Inst
  | .cmd => e
  | .status => e.writeStatus v
  | .src => { e with src := v }
  | .dst => { e with dst := v }
  | .stride => { e with stride := v.extractLsb' 0 16 }
  | .operand => { e with operand := v.extractLsb' 0 16 }
  | .result => e
  | .reserved => e

end Sys2Proof.Machine
end

