-- ==== Sys2Proof/Machine/Operands.lean ====
section
/-! DEFINITION. The operands of a command: the latch, element addresses, regions, preconditions and ownership
(20_memory R73 to R78, R88). -/

namespace Sys2Proof.Machine

open Sys2Proof

/-- The latch that acceptance loads (10_state R45, R46). -/
def Inst.latchFor (e : Inst) (i : Instr) : Latch :=
  { op := i, src := e.src, dst := e.dst, stride := e.stride, operand := e.operand }

/-! ## Element addresses, exact integers -/

/-- Sample (r, c) (R73). -/
def Latch.sampleAddr (L : Latch) (r c : Nat) : Nat := L.src.toNat + r * L.stride.toNat + c

/-- Element (r, c) of a strided coefficient grid at `b` (R74). -/
def Latch.coefAddr (L : Latch) (b : Word) (r c : Nat) : Nat := b.toNat + 2 * (r * L.stride.toNat + c)

/-- Element (u, v) of output tile t of HAD16 (R75). -/
def Latch.tileAddr (L : Latch) (t u v : Nat) : Nat := L.dst.toNat + 2 * (Config.tilePitch * t + 8 * u + v)

/-- The positions of an n×n grid, row-major. -/
def gridPositions (n : Nat) : List (Nat × Nat) :=
  (List.range n).flatMap (fun r => (List.range n).map (fun c => (r, c)))

/-- The positions (t, u, v) of the tile-major output of HAD16. -/
def tilePositions : List (Nat × Nat × Nat) :=
  (List.range 4).flatMap (fun t => (gridPositions 8).map (fun p => (t, p.1, p.2)))

/-- The bytes of one element: 1 for a sample, 2 for a coefficient (R79). -/
def elemBytes : Instr → Nat
  | .avg4 => 1
  | .avg8 => 1
  | .had8 => 2
  | .had16 => 2
  | .shl _ => 0
  | .shr _ => 0
  | .shrr _ => 0
  | .sra _ => 0
  | .srar _ => 0

/-- The addresses of the input elements of a command (R73, R74). -/
def inputElems (i : Instr) (L : Latch) : List Nat :=
  match i with
  | .avg4 => (gridPositions 4).map (fun p => L.sampleAddr p.1 p.2)
  | .avg8 => (gridPositions 8).map (fun p => L.sampleAddr p.1 p.2)
  | .had8 => (gridPositions 8).map (fun p => L.coefAddr L.src p.1 p.2)
  | .had16 => (gridPositions 16).map (fun p => L.coefAddr L.src p.1 p.2)
  | .shl _ => []
  | .shr _ => []
  | .shrr _ => []
  | .sra _ => []
  | .srar _ => []

/-- The addresses of the output elements of a command (R74, R75). -/
def outputElems (i : Instr) (L : Latch) : List Nat :=
  match i with
  | .avg4 => []
  | .avg8 => []
  | .had8 => (gridPositions 8).map (fun p => L.coefAddr L.dst p.1 p.2)
  | .had16 => tilePositions.map (fun p => L.tileAddr p.1 p.2.1 p.2.2)
  | .shl _ => []
  | .shr _ => []
  | .shrr _ => []
  | .sra _ => []
  | .srar _ => []

/-- The input region: every byte of every input element (R88). -/
def inputBytes (i : Instr) (L : Latch) : List Nat := (inputElems i L).flatMap (fun a => bytesFrom a (elemBytes i))

/-- The output region: every byte of every output element (R88). -/
def outputBytes (i : Instr) (L : Latch) : List Nat := (outputElems i L).flatMap (fun a => bytesFrom a (elemBytes i))

/-! ## Preconditions (R76 to R78) -/

/-- The least stride: the block size N (R78); 0 for the shifts, which have no precondition (R77). -/
def minStride : Instr → Nat
  | .avg4 => 4
  | .avg8 => 8
  | .had8 => 8
  | .had16 => 16
  | .shl _ => 0
  | .shr _ => 0
  | .shrr _ => 0
  | .sra _ => 0
  | .srar _ => 0

/-- HAD8 and HAD16 work on 16-bit elements, which must lie at even addresses (R77). -/
def needsEven : Instr → Bool
  | .avg4 => false
  | .avg8 => false
  | .had8 => true
  | .had16 => true
  | .shl _ => false
  | .shr _ => false
  | .shrr _ => false
  | .sra _ => false
  | .srar _ => false

/-- Alignment (R77). -/
def alignedOk (i : Instr) (L : Latch) : Bool :=
  !needsEven i || (decide (L.src.toNat % 2 = 0) && decide (L.dst.toNat % 2 = 0))

/-- Stride (R78). -/
def strideOk (i : Instr) (L : Latch) : Bool := decide (minStride i ≤ L.stride.toNat)

/-- Bounds: every byte of every element is ordinary memory (R76, log 10). -/
def boundsOk (memAdmit : List Region) (i : Instr) (L : Latch) : Bool :=
  (inputBytes i L).all (admits memAdmit) && (outputBytes i L).all (admits memAdmit)

/-- The first precondition that fails, in the order MF2, MF3, MF1 (60_exceptions R224). -/
def preFault (memAdmit : List Region) (i : Instr) (L : Latch) : Option Fault :=
  if alignedOk i L then
    if strideOk i L then
      if boundsOk memAdmit i L then none else some (.mf1 L)
    else some (.mf3 L)
  else some (.mf2 L)

/-! ## Exclusive ownership (R88) -/

/-- Another agent's access to `bytes` breaks the ownership of the command that `e` runs: a write of its input or
output region, or a read of its output region. -/
def Inst.owns (e : Inst) (kind : AccessKind) (bytes : List Nat) : Bool :=
  e.busy && bytes.any (fun a =>
    match kind with
    | .write => (inputBytes e.latch.op e.latch).contains a || (outputBytes e.latch.op e.latch).contains a
    | .read => (outputBytes e.latch.op e.latch).contains a)

/-- The units other than `k`. -/
def State.otherUnits (s : State) (k : Nat) : List Inst := s.insts.eraseIdx k

/-- The element accesses of command `i` on unit `k`: every read, then every write (R83). -/
def engineAccesses (k : Nat) (i : Instr) (L : Latch) : List Access :=
  (inputElems i L).map (fun a => { agent := .engine k, kind := .read, addr := a, bytes := elemBytes i }) ++
    (outputElems i L).map (fun a => { agent := .engine k, kind := .write, addr := a, bytes := elemBytes i })

/-- The first access of the command that another running command's ownership forbids (R88, R95, log 11). -/
def State.engineConflict (s : State) (k : Nat) (i : Instr) (L : Latch) : Option Access :=
  (engineAccesses k i L).find? (fun a => (s.otherUnits k).any (fun e => e.owns a.kind (bytesFrom a.addr a.bytes)))

/-! ## Completion (10_state R47)

The one shared frame of the nine meanings: the selected unit's preconditions and ownership, then the command's effect. -/

/-- Run `effect` for command `i` on the selected unit. -/
def completion (i : Instr) (s : State) (effect : Inst → State) : Host.Outcome State Fault Refusal :=
  match s.unit? s.sel with
  | none => .refused (.noUnit s.sel)
  | some e =>
    match preFault s.memAdmit i e.latch with
    | some f => .fault f
    | none =>
      match s.engineConflict s.sel i e.latch with
      | some a => .fault (.mf4 a)
      | none => .next (effect e)

/-- The end of every completion: the unit is idle and DONE is set (R47). -/
def State.finish (s : State) (e : Inst) : State := s.setUnit s.sel e.toIdle

end Sys2Proof.Machine
end

