-- ==== Sys2Proof/Machine/Bus.lean ====
section
/-! DEFINITION. The host's accesses: the register window, with the command logic of a CMD write (10_state R33, R45), and
ordinary memory, with exclusive ownership (20_memory R88). -/

namespace Sys2Proof.Machine

open Sys2Proof

/-! ## The command logic (10_state R45) -/

/-- Acceptance of a legal command on unit k: load the latch, check the preconditions, become busy. -/
def accept (s : State) (k : Nat) (e : Inst) (i : Instr) : Host.Outcome State Fault Refusal :=
  match preFault s.memAdmit i (e.latchFor i) with
  | some f => .fault f
  | none => .next (s.setUnit k ({ e with latch := e.latchFor i } : Inst).toBusy)

/-- A write of `w` to CMD: COLLIDE while busy, ILLEGAL for an illegal word, acceptance otherwise (R45, R224). -/
def writeCmd (s : State) (k : Nat) (e : Inst) (w : Word) : Host.Outcome State Fault Refusal :=
  if e.busy then .next (s.setUnit k (e.raiseEvent .collide))
  else
    match decode w with
    | .error _ => .next (s.setUnit k (e.raiseEvent .illegal))
    | .ok i => accept s k e i

/-- A write of `v` to a slot of unit k's window (R34 to R41). -/
def writeWindow (s : State) (k : Nat) (e : Inst) (slot : Slot) (v : Word) : Host.Outcome State Fault Refusal :=
  match slot with
  | .cmd => writeCmd s k e v
  | .status => .next (s.setUnit k (e.writeSlot v .status))
  | .src => .next (s.setUnit k (e.writeSlot v .src))
  | .dst => .next (s.setUnit k (e.writeSlot v .dst))
  | .stride => .next (s.setUnit k (e.writeSlot v .stride))
  | .operand => .next (s.setUnit k (e.writeSlot v .operand))
  | .result => .next (s.setUnit k (e.writeSlot v .result))
  | .reserved => .next (s.setUnit k (e.writeSlot v .reserved))

/-! ## Where an access goes -/

/-- The first unit, with its number, whose window holds one of the bytes. -/
def State.windowAt (s : State) (bytes : List Nat) : Option (Inst × Nat) :=
  s.insts.zipIdx.find? (fun p => bytes.any (fun a => p.1.window.holds a))

/-- An aligned 32-bit access, the only one a window allows (10_state R33). -/
def Access.aligned32 (a : Access) : Bool := a.bytes == 4 && a.addr % 4 == 0

/-- The bytes of an access. -/
def Access.byteList (a : Access) : List Nat := bytesFrom a.addr a.bytes

/-- A running command's ownership forbids the access (R88). -/
def State.owned (s : State) (a : Access) : Bool := s.insts.any (fun e => e.owns a.kind a.byteList)

/-- An access to memory: MF4 as soon as a running command owns one of its bytes, whatever the others are (R88); else a
byte that nothing backs refuses it (log 13); else it goes on. DESIGN CHOICE (log 27): so does an access of no bytes. -/
def State.memoryAccess (s : State) (a : Access) (onOk : State) : Host.Outcome State Fault Refusal :=
  if s.owned a then .fault (.mf4 a)
  else if a.byteList.all (admits s.memAdmit) then .next onOk
  else .refused (.hostUnbacked a)

/-- A host write of the `n` low bytes of `v` at `addr` (30_encoding R109: WR and MW). MF5 comes before MF4 (log 29).
DESIGN CHOICE (log 27): with n = 0 it touches nothing, a window neither, and goes on without an effect. -/
def hostStore (s : State) (addr n v : Nat) : Host.Outcome State Fault Refusal :=
  let a : Access := { agent := .host, kind := .write, addr := addr, bytes := n }
  match s.windowAt a.byteList with
  | some p => if a.aligned32 then writeWindow s p.2 p.1 (slotAt (addr - p.1.base)) (BitVec.ofNat 32 v) else .fault (.mf5 a)
  | none => s.memoryAccess a { s with mem := s.mem.writeBytes addr n v }

/-- A host read of `n` bytes at `addr` (30_encoding R109: RD and MR). The value goes to `hostRead` (log 16). MF5 comes
before MF4 (log 29). DESIGN CHOICE (log 27): with n = 0 it touches nothing, a window neither, and reads 0. -/
def hostLoad (s : State) (addr n : Nat) : Host.Outcome State Fault Refusal :=
  let a : Access := { agent := .host, kind := .read, addr := addr, bytes := n }
  match s.windowAt a.byteList with
  | some p =>
    if a.aligned32 then .next { s with hostRead := (p.1.readSlot (slotAt (addr - p.1.base))).toNat } else .fault (.mf5 a)
  | none => s.memoryAccess a { s with hostRead := s.mem.readBytes addr n }

/-- WAIT: read STATUS, and again while bit 0 of the value read is 1 (30_encoding R110). `rest` is what the host does
next. -/
def hostWait (s : State) (base : Nat) (rest : List HostStep) : Host.Outcome State Fault Refusal :=
  match hostLoad { s with host := rest } (base + Slot.status.offset) 4 with
  | .next t => if t.hostRead % 2 = 1 then .next { t with host := .wait base :: rest } else .next t
  | .fault f => .fault f
  | .refused r => .refused r

/-- The host's next step; with none left, nothing happens (log 18). -/
def hostTurn (s : State) : Host.Outcome State Fault Refusal :=
  match s.host with
  | [] => .next s
  | .write addr n v :: rest => hostStore { s with host := rest } addr n v
  | .read addr n :: rest => hostLoad { s with host := rest } addr n
  | .wait base :: rest => hostWait s base rest

/-! ## Host programs (30_encoding R109, R110) -/

/-- `WR reg, value` on the unit whose window is at `base`. -/
def hostWr (base : Nat) (slot : Slot) (value : Nat) : HostStep := .write (base + slot.offset) 4 value

/-- `RD reg`. -/
def hostRd (base : Nat) (slot : Slot) : HostStep := .read (base + slot.offset) 4

/-- `CLR` is `WR STATUS, 0x0000000E`. -/
def hostClr (base : Nat) : HostStep := hostWr base .status 0x0000000E

/-- `RUN cmd` is `WR CMD, cmd` and then `WAIT`. -/
def hostRun (base : Nat) (i : Instr) : List HostStep := [hostWr base .cmd (encode i).toNat, .wait base]

/-! ## Reset (70_reset R250, R251) -/

/-- Reset of unit k: every register and flag at its reset value; a running command is aborted, and the bytes of its
output region become free values (log 12). No memory access is made, so no ownership is broken. DESIGN CHOICE (log 28):
nor is MF4 raised for element accesses that the aborted command may have made before the reset. -/
def resetUnit (s : State) (k : Nat) : State :=
  match s.unit? k with
  | none => s
  | some e =>
    if e.busy then
      { s with
        insts := s.insts.set k (Inst.reset e.base)
        mem := s.mem.scramble s.fresh (outputBytes e.latch.op e.latch)
        fresh := s.fresh + (outputBytes e.latch.op e.latch).length }
    else s.setUnit k (Inst.reset e.base)

end Sys2Proof.Machine
end

