-- ==== Sys2Proof/Machine/ShiftUnit.lean ====
section
/-! DEFINITION. The shift unit (40_shift_unit): the primitives of R130 to R132 on exact integers, and SHL, SHR, SHRR, SRA,
SRAR. -/

namespace Sys2Proof.Machine

open Sys2Proof

/-! ## Primitives -/

/-- floor(v / 2^s) (R130); integer division by a positive number rounds toward negative infinity. -/
def shrFloor (v : Int) (s : Nat) : Int := v / 2 ^ s

/-- The rounding constant rc(s) (R131). -/
def roundConst : Nat → Int
  | 0 => 0
  | s + 1 => 2 ^ s

/-- Round half up, on the exact sum (R131). -/
def shrRound (v : Int) (s : Nat) : Int := shrFloor (v + roundConst s) s

/-- Left shift keeping the low 16 bits (R132). -/
def shlWrap16 (v : Int) (s : Nat) : Half := wrap16 (v * 2 ^ s)

/-! ## The commands -/

/-- What every shift does at completion: RESULT <- y, and nothing else but the completion itself (R134). -/
def shiftEffect (s : State) (e : Inst) (y : Half) : State := s.finish { e with result := y }

/-- SHL #s (R135). -/
def execShl (sh : Nat) (s : State) : Host.Outcome State Fault Refusal :=
  completion (.shl sh) s (fun e => shiftEffect s e (shlWrap16 (zext e.latch.operand) sh))

/-- SHR #s (R136). -/
def execShr (sh : Nat) (s : State) : Host.Outcome State Fault Refusal :=
  completion (.shr sh) s (fun e => shiftEffect s e (wrap16 (shrFloor (zext e.latch.operand) sh)))

/-- SHRR #s (R137). -/
def execShrr (sh : Nat) (s : State) : Host.Outcome State Fault Refusal :=
  completion (.shrr sh) s (fun e => shiftEffect s e (wrap16 (shrRound (zext e.latch.operand) sh)))

/-- SRA #s (R138). -/
def execSra (sh : Nat) (s : State) : Host.Outcome State Fault Refusal :=
  completion (.sra sh) s (fun e => shiftEffect s e (wrap16 (shrFloor (sext16 e.latch.operand) sh)))

/-- SRAR #s (R139). -/
def execSrar (sh : Nat) (s : State) : Host.Outcome State Fault Refusal :=
  completion (.srar sh) s (fun e => shiftEffect s e (wrap16 (shrRound (sext16 e.latch.operand) sh)))

end Sys2Proof.Machine
end

