-- ==== Sys2Proof/Machine/BlockAverage.lean ====
section
/-! DEFINITION. The block-average accumulator (41_block_average): AVG4 and AVG8. -/

namespace Sys2Proof.Machine

open Sys2Proof

/-- Sample (r, c) of the input block (20_memory R73). -/
def sample (m : Memory) (L : Latch) (r c : Nat) : Byte := m.read (L.sampleAddr r c)

/-- ACC <- 0, then ACC <- ACC + sample for every sample, in the 16-bit accumulator (R160). -/
def accumulate (m : Memory) (L : Latch) (n : Nat) : Half :=
  (gridPositions n).foldl (fun acc p => acc + (sample m L p.1 p.2).zeroExtend 16) 0

/-- ACC holds the sum (log 8), and RESULT the sum shifted right by `sh` with rounding half up (R160). -/
def averageEffect (n sh : Nat) (s : State) (e : Inst) : State :=
  let sum := accumulate s.mem e.latch n
  s.finish { e with acc := sum, result := wrap16 (shrRound (zext sum) sh) }

/-- AVG4: N = 4, log2(N * N) = 4 (R161). -/
def execAvg4 (s : State) : Host.Outcome State Fault Refusal := completion .avg4 s (averageEffect 4 4 s)

/-- AVG8: N = 8, log2(N * N) = 6 (R162). -/
def execAvg8 (s : State) : Host.Outcome State Fault Refusal := completion .avg8 s (averageEffect 8 6 s)

end Sys2Proof.Machine
end

