-- ==== Sys2Proof/Machine/Hadamard8.lean ====
section
/-! DEFINITION. The order-8 butterfly network and HAD8 (42_hadamard8x8). -/

namespace Sys2Proof.Machine

open Sys2Proof

/-! ## The butterfly (R180)

Vectors and grids are read by index; only indexes 0 to 7 count. The sum and the difference of 16-bit patterns are wrap16
of the exact sum and difference (00_scope R9). -/

/-- One stage of span h: the pair (k, k + h) with k & h = 0 becomes (sum, difference), each in its natural position. -/
def bfStage (h : Nat) (a : Nat → Half) (k : Nat) : Half :=
  if k &&& h = 0 then a k + a (k + h) else a (k - h) - a k

/-- The three stages, spans 1, 2, 4 in this order. -/
def bf8 (a : Nat → Half) : Nat → Half := bfStage 4 (bfStage 2 (bfStage 1 a))

/-- The row pass: Y[r] <- bf8(X[r]) (R182). -/
def rowPass (x : Nat → Nat → Half) (r c : Nat) : Half := bf8 (x r) c

/-- Transpose, column pass, transpose back: Z[u][v] <- bf8 of column v, at u (R182). -/
def columnPass (y : Nat → Nat → Half) (u v : Nat) : Half := bf8 (fun r => y r v) u

/-- The grid `y` written out, its 64 elements row-major: the whole row pass comes before the column pass (R182). -/
def formed8 (y : Nat → Nat → Half) (r c : Nat) : Half :=
  ((List.range 64).map (fun n => y (n / 8) (n % 8))).getD (8 * r + c) 0

/-- The 8×8 transform: HAD8 on a grid (R182, R183), and HAD8core of 43_hadamard16x16 R202. -/
def had8Grid (x : Nat → Nat → Half) : Nat → Nat → Half := columnPass (formed8 (rowPass x))

/-! ## The working buffer W (10_state R48) -/

/-- W with entry n equal to `f n`. -/
def Work.ofFn (f : Nat → Half) : Work := ⟨⟨(List.range 256).map f⟩, by simp⟩

/-- Entry n of W. -/
def Work.entry (w : Work) (n : Nat) : Half := w.toArray.toList.getD n 0

/-- Element (r, c) of a strided coefficient grid at `b` (20_memory R74). -/
def coef (m : Memory) (L : Latch) (b : Word) (r c : Nat) : Half := m.readHalf (L.coefAddr b r c)

/-- The load phase of HAD8: element (r, c) into W[8r + c]; entries 64 to 255 are not used (R182, 10_state R48). -/
def load8 (m : Memory) (L : Latch) (w : Work) : Work :=
  Work.ofFn (fun n => if n < 64 then coef m L L.src (n / 8) (n % 8) else w.entry n)

/-- The 8×8 grid that W holds from entry `n` on, row-major. -/
def Work.grid8 (w : Work) (n r c : Nat) : Half := w.entry (n + 8 * r + c)

/-- What the store phase of HAD8 writes: Z[u][v] at its address (R182). -/
def had8Stores (L : Latch) (w : Work) : List (Nat × Half) :=
  (gridPositions 8).map (fun p => (L.coefAddr L.dst p.1 p.2, had8Grid (w.grid8 0) p.1 p.2))

/-- Load, transform, store, complete (R182). RESULT is unchanged. After it, W is a free value (10_state R48, log 7). -/
def had8Effect (s : State) (e : Inst) : State :=
  let w := load8 s.mem e.latch e.work
  State.finish { s with mem := s.mem.storeHalves (had8Stores e.latch w), fresh := s.fresh + 1 }
    { e with work := Config.freeWork s.fresh }

/-- HAD8 (R182). -/
def execHad8 (s : State) : Host.Outcome State Fault Refusal := completion .had8 s (had8Effect s)

end Sys2Proof.Machine
end

