-- ==== Sys2Proof/Machine/Hadamard16.lean ====
section
/-! DEFINITION. The tile-and-combine network and HAD16 (43_hadamard16x16). -/

namespace Sys2Proof.Machine

open Sys2Proof

/-- The load phase: element (R, C) into W[16R + C] (R200; the places within W are the model's, log 24). -/
def load16 (m : Memory) (L : Latch) : Work := Work.ofFn (fun n => coef m L L.src (n / 16) (n % 16))

/-- The 16×16 grid in W after the load phase. -/
def Work.grid16 (w : Work) (r c : Nat) : Half := w.entry (16 * r + c)

/-- Tile t of a 16×16 grid (R201). -/
def tile (x : Nat → Nat → Half) (t r c : Nat) : Half := x (8 * (t / 2) + r) (8 * (t % 2) + c)

/-- The grid of the four with number t. -/
def pickTile (p0 p1 p2 p3 : Nat → Nat → Half) (t : Nat) : Nat → Nat → Half :=
  match t with
  | 0 => p0
  | 1 => p1
  | 2 => p2
  | _ => p3

/-- W with four 8×8 grids in it, P[t][u][v] in W[64t + 8u + v] (log 24). -/
def Work.ofTiles (p0 p1 p2 p3 : Nat → Nat → Half) : Work :=
  Work.ofFn (fun n => pickTile p0 p1 p2 p3 (n / 64) (n / 8 % 8) (n % 8))

/-- Phase 1: the four independent tile transforms (R200, R202). -/
def phase1 (w : Work) : Work :=
  Work.ofTiles (had8Grid (tile w.grid16 0)) (had8Grid (tile w.grid16 1)) (had8Grid (tile w.grid16 2))
    (had8Grid (tile w.grid16 3))

/-- The exact sum s_t of the four tile values, in the 18-bit phase-2 datapath (R203, 10_state R50). -/
def combine (t : Nat) (a0 a1 a2 a3 : Int) : Int :=
  match t with
  | 0 => a0 + a1 + a2 + a3
  | 1 => a0 - a1 + a2 - a3
  | 2 => a0 + a1 - a2 - a3
  | _ => a0 - a1 - a2 + a3

/-- Phase 2: O[t][u][v] <- wrap16(s_t >> 1) (R203). The shift comes once, after the whole combination (R209). -/
def phase2 (w : Work) (t u v : Nat) : Half :=
  wrap16 (shrFloor (combine t (sext16 (w.grid8 0 u v)) (sext16 (w.grid8 64 u v)) (sext16 (w.grid8 128 u v))
    (sext16 (w.grid8 192 u v))) 1)

/-- What the store phase writes: O[t][u][v], tile-major (R200, R204). -/
def had16Stores (L : Latch) (w : Work) : List (Nat × Half) :=
  tilePositions.map (fun p => (L.tileAddr p.1 p.2.1 p.2.2, phase2 w p.1 p.2.1 p.2.2))

/-- Load, phase 1, phase 2, store, complete (R200, R205). RESULT is unchanged. After it, W is a free value (10_state R48,
log 7). -/
def had16Effect (s : State) (e : Inst) : State :=
  let w := phase1 (load16 s.mem e.latch)
  State.finish { s with mem := s.mem.storeHalves (had16Stores e.latch w), fresh := s.fresh + 1 }
    { e with work := Config.freeWork s.fresh }

/-- HAD16 (R200). -/
def execHad16 (s : State) : Host.Outcome State Fault Refusal := completion .had16 s (had16Effect s)

end Sys2Proof.Machine
end

