-- ==== Sys2Proof/Machine/Dispatch.lean ====
section
/-! DEFINITION. The dispatch from a command to its meaning: what its completion does on the selected unit (10_state R47). -/

namespace Sys2Proof.Machine

open Sys2Proof

def exec (i : Instr) (s : State) : Host.Outcome State Fault Refusal :=
  match i with
  | .avg4 => Sys2Proof.Machine.execAvg4 s
  | .avg8 => Sys2Proof.Machine.execAvg8 s
  | .had8 => Sys2Proof.Machine.execHad8 s
  | .had16 => Sys2Proof.Machine.execHad16 s
  | .shl sh => Sys2Proof.Machine.execShl sh s
  | .shr sh => Sys2Proof.Machine.execShr sh s
  | .shrr sh => Sys2Proof.Machine.execShrr sh s
  | .sra sh => Sys2Proof.Machine.execSra sh s
  | .srar sh => Sys2Proof.Machine.execSrar sh s

end Sys2Proof.Machine
end

