-- ==== Sys2Proof/Machine/Turns.lean ====
section
/-! DEFINITION. One agent's step, and which agent moves (20_memory R90; 10_state R47; log 1, log 2). -/

namespace Sys2Proof.Machine

open Sys2Proof

/-- The engine step of unit k: completion of the latched command, enabled only while busy (10_state R47). -/
def engineTurn (s : State) (k : Nat) : Host.Outcome State Fault Refusal :=
  match s.unit? k with
  | none => .next s
  | some e => if e.busy then exec e.latch.op { s with sel := k } else .next s

/-- The step of one agent. -/
def takeTurn (s : State) (a : Agent) : Host.Outcome State Fault Refusal :=
  match a with
  | .host => hostTurn s
  | .engine k => engineTurn s k
  | .reset k => .next (resetUnit s k)

/-- Who moves when the fixed order is used up: the busy unit of the lowest number, else the host. So a completion always
comes after finitely many steps (10_state R47, 70_reset R262, log 2). -/
def State.nextAgent (s : State) : Agent :=
  match s.insts.findIdx? Inst.busy with
  | some k => .engine k
  | none => .host

/-- Who moves: the agent at the head of `turns`, or `State.nextAgent` when no order is fixed any more. -/
def State.mover (s : State) : Agent :=
  match s.turns with
  | [] => s.nextAgent
  | a :: _ => a

end Sys2Proof.Machine
end

