-- ==== Sys2Proof/Machine/Step.lean ====
section
/-! DEFINITION. One step of the machine: one agent's step in the global order (20_memory R90). -/

namespace Sys2Proof.Machine

open Sys2Proof

/-- The step of the agent whose turn it is; its turn is used up. -/
def step (s : State) : Host.Outcome State Fault Refusal := takeTurn { s with turns := s.turns.tail } s.mover

/-- A command word where the machine takes its next command from (log 3): a word that decodes stands in the selected
unit's latch with the unit busy, as acceptance leaves it, and the engine moves next; a word that does not decode is the
host's next CMD write. -/
def State.withFetchWord (s : State) (nbits w : Nat) : State :=
  match s.insts[s.sel]? with
  | none => s
  | some e =>
    match decodeTableWord nbits w with
    | some i =>
      { s with
        insts := s.insts.set s.sel { e with latch := e.latchFor i, phase := .busy, done := false }
        turns := .engine s.sel :: s.turns }
    | none =>
      { s with
        host := .write e.base 4 (w % 2 ^ nbits) :: s.host
        turns := .host :: s.turns }

end Sys2Proof.Machine
end

