-- ==== Sys2Proof/Safety.lean ====
section
/-! DEFINITION. The machine's invariant, what a safe run is, and the terms in which claims are stated. -/

namespace Sys2Proof.Machine

open Sys2Proof

/-! ## The invariant -/

/-- What holds of one unit: its window is 32-byte aligned, inside the address space and never ordinary memory
(20_memory R71); while it is busy, DONE is 0 (10_state R43), the latch holds a command, and the command's preconditions
hold (10_state R45). -/
def Inst.ok (memAdmit : List Region) (e : Inst) : Bool :=
  decide (e.base % Config.windowBytes = 0) && decide (e.base + Config.windowBytes ≤ Config.addressSpace) &&
    (bytesFrom e.base Config.windowBytes).all (fun a => !admits memAdmit a) &&
    (!e.busy || (e.latch.op.wf && !e.done && (preFault memAdmit e.latch.op e.latch).isNone))

/-- The invariant: memory in canonical form and only where memory is, at least one unit, windows apart, every unit ok. -/
abbrev State.Inv (s : State) : Prop :=
  s.mem.wf = true ∧ (∀ c ∈ s.mem, admits s.memAdmit c.1 = true) ∧ s.insts ≠ [] ∧ (s.insts.map Inst.base).Nodup ∧
    ∀ e ∈ s.insts, e.ok s.memAdmit = true

/-- A run of `n` steps that meets no fault and no refusal. -/
def State.safeFor (s : State) (n : Nat) : Prop := ∃ t, Sys2Proof.core.run n s = .next t

/-! ## The Walsh–Hadamard matrix (00_scope R9, R12) -/

/-- The number of 1 bits of `k`; no bit at or above place `k` is 1. -/
def popcount (k : Nat) : Nat := ((List.range k).filter (fun b => k.testBit b)).length

/-- H[k][j] = (−1)^popcount(k & j), the natural-order matrix; H8 for k, j < 8 and H16 for k, j < 16 (R12). -/
def walsh (k j : Nat) : Int := (-1) ^ popcount (k &&& j)

/-- Σ over an n×n grid. -/
def gridSum (n : Nat) (f : Nat → Nat → Int) : Int := ∑ r ∈ Finset.range n, ∑ c ∈ Finset.range n, f r c

/-- (H8 · X · H8)[u][v], exact (42_hadamard8x8 R183). -/
def walsh8 (x : Nat → Nat → Half) (u v : Nat) : Int := gridSum 8 (fun r c => walsh u r * walsh v c * sext16 (x r c))

/-- (H16 · X · H16)[u][v], exact (43_hadamard16x16 R206). -/
def walsh16 (x : Nat → Nat → Half) (u v : Nat) : Int := gridSum 16 (fun r c => walsh u r * walsh v c * sext16 (x r c))

/-! ## When a command completes -/

/-- The ownership that running commands of other units have is respected by command `i` on unit `k` (20_memory R88). -/
def State.ownershipOk (s : State) (k : Nat) (i : Instr) (L : Latch) : Prop :=
  ∀ j e, s.insts[j]? = some e → j ≠ k → e.busy = true →
    (∀ a ∈ inputBytes i L, a ∉ outputBytes e.latch.op e.latch) ∧
    (∀ a ∈ outputBytes i L, a ∉ inputBytes e.latch.op e.latch ∧ a ∉ outputBytes e.latch.op e.latch)

/-- The host's next step is `h`, and it is the host's turn. -/
def State.hostNext (s : State) (h : HostStep) : Prop := s.mover = .host ∧ s.host.head? = some h

/-- The state in which the agent whose turn it is moves: its turn is used up. -/
def State.turnUsed (s : State) : State := { s with turns := s.turns.tail }

/-- The same, with the host's step used up too. -/
def State.hostUsed (s : State) : State := { s with turns := s.turns.tail, host := s.host.tail }

end Sys2Proof.Machine
end

