-- ==== Sys2Proof/Certificates/Slice0/Obligations.lean ====
section
/-! DEFINITION. The statements for the provers, each with the rule of spec/ it formalises. -/

open Sys2Proof Sys2Proof.Machine

/-! ## Encoding (30_encoding) -/

/-- Words written out from R105 and the decode table of 95_test_vectors 2.1 decode to what they stand for. -/
def Obligations.SampleWordsDecode : Prop :=
  decode 0x00000001 = .ok .avg4 ∧ decode 0x00000002 = .ok .avg8 ∧ decode 0x00000003 = .ok .had8 ∧
  decode 0x00000004 = .ok .had16 ∧ decode 0x000001F5 = .ok (.shl 15) ∧ decode 0x000000F5 = .ok (.shr 15) ∧
  decode 0x00000245 = .ok (.shrr 4) ∧ decode 0x000004F5 = .ok (.sra 15) ∧ decode 0x00000615 = .ok (.srar 1) ∧
  decode 0x00000000 = .error .reservedOp ∧ decode 0x00000011 = .error .reservedBits ∧
  decode 0x00000805 = .error .reservedBits ∧ decode 0x00000305 = .error .reservedLeftShift

/-- Decoding the encoding of a command gives it back, from the word, from its four bytes and from the table's number
(R105, R106, R108). -/
def Obligations.DecodeOfEncode : Prop :=
  ∀ i : Instr, i.wf = true →
    decode (encode i) = .ok i ∧ decodeBytes (bytesOfWord (encode i)) = .ok i ∧
      decodeTableWord 32 (encode i).toNat = some i

/-- A word that decodes is the encoding of what it decodes to: no two words are the same command, and every decoded
command is one (R105, R106). -/
def Obligations.EncodeOfDecode : Prop :=
  ∀ (w : Word) (i : Instr), decode w = .ok i → i.wf = true ∧ encode i = w

/-- R105: the words that decode are those that match a row of the table, the row is the decoded command's, no word
matches two rows, and every word that matches no row is illegal. -/
def Obligations.DecodeIsTheMatchMaskTable : Prop :=
  (∀ (w : Word) (i : Instr), decode w = .ok i → ∃ r ∈ commandTable, r.isWord w = true ∧ r.mnemonic = i.mnemonic) ∧
  (∀ (w : Word), ∀ r ∈ commandTable, r.isWord w = true → ∃ i, decode w = .ok i ∧ i.mnemonic = r.mnemonic) ∧
  (∀ (w : Word), ∀ r ∈ commandTable, ∀ q ∈ commandTable, r.isWord w = true → q.isWord w = true → r = q) ∧
  (∀ (w : Word), (∀ r ∈ commandTable, r.isWord w = false) → ∃ x, decode w = .error x)

/-- R107: which words are illegal, and what writing one to CMD does: while idle it sets ILLEGAL and changes nothing else;
while busy it is not decoded and COLLIDE is set instead. -/
def Obligations.IllegalWords : Prop :=
  (∀ w : Word, (∃ x, decode w = .error x) ↔
    (opField w = 0 ∨ 6 ≤ opField w ∨ (1 ≤ opField w ∧ opField w ≤ 4 ∧ w.toNat / 16 ≠ 0) ∨
      (opField w = 5 ∧ (w.toNat / 2048 ≠ 0 ∨ (dirField w = true ∧ (rndField w = true ∨ sgnField w = true)))))) ∧
  (∀ (s : State) (k : Nat) (e : Inst) (v : Nat) (x : Illegal), s.Inv → s.insts[k]? = some e →
    s.hostNext (.write e.base 4 v) → decode (BitVec.ofNat 32 v) = .error x →
      step s = .next { s.hostUsed with
        insts := s.insts.set k (if e.busy then { e with collide := true } else { e with illegal := true }) })

/-! ## The shift unit (40_shift_unit) -/

/-- R135. SHL #s: RESULT <- x · 2^s, the low 16 bits; nothing else but the completion. -/
def Obligations.ShlShiftsLeftWrapping : Prop :=
  ∀ (s : State) (e : Inst) (sh : Nat), s.insts[s.sel]? = some e → sh < 16 →
    encode (.shl sh) = 0x00000105 ||| (BitVec.ofNat 32 sh <<< 4) ∧
    ∃ y : Half, y.toNat = e.latch.operand.toNat * 2 ^ sh % 2 ^ 16 ∧
      exec (.shl sh) s = .next { s with
        insts := s.insts.set s.sel { e with phase := .idle, done := true, result := y } }

/-- R136. SHR #s: RESULT <- floor(x / 2^s), x unsigned; nothing else but the completion. -/
def Obligations.ShrShiftsRightLogical : Prop :=
  ∀ (s : State) (e : Inst) (sh : Nat), s.insts[s.sel]? = some e → sh < 16 →
    encode (.shr sh) = 0x00000005 ||| (BitVec.ofNat 32 sh <<< 4) ∧
    ∃ y : Half, y.toNat = e.latch.operand.toNat / 2 ^ sh ∧
      exec (.shr sh) s = .next { s with
        insts := s.insts.set s.sel { e with phase := .idle, done := true, result := y } }

/-- R137. SHRR #s: RESULT <- floor((x + rc(s)) / 2^s), x unsigned, the sum exact. -/
def Obligations.ShrrRoundsHalfUp : Prop :=
  ∀ (s : State) (e : Inst) (sh : Nat), s.insts[s.sel]? = some e → sh < 16 →
    encode (.shrr sh) = 0x00000205 ||| (BitVec.ofNat 32 sh <<< 4) ∧
    ∃ y : Half, y.toNat = (e.latch.operand.toNat + (if sh = 0 then 0 else 2 ^ (sh - 1))) / 2 ^ sh ∧
      exec (.shrr sh) s = .next { s with
        insts := s.insts.set s.sel { e with phase := .idle, done := true, result := y } }

/-- R138. SRA #s: RESULT <- floor(x / 2^s), x signed. -/
def Obligations.SraShiftsRightArithmetic : Prop :=
  ∀ (s : State) (e : Inst) (sh : Nat), s.insts[s.sel]? = some e → sh < 16 →
    encode (.sra sh) = 0x00000405 ||| (BitVec.ofNat 32 sh <<< 4) ∧
    ∃ y : Half, y.toInt = ⌊(e.latch.operand.toInt : ℚ) / 2 ^ sh⌋ ∧
      exec (.sra sh) s = .next { s with
        insts := s.insts.set s.sel { e with phase := .idle, done := true, result := y } }

/-- R139. SRAR #s: RESULT <- floor((x + rc(s)) / 2^s), x signed, the sum exact; a tie rounds toward positive infinity. -/
def Obligations.SrarRoundsHalfUp : Prop :=
  ∀ (s : State) (e : Inst) (sh : Nat), s.insts[s.sel]? = some e → sh < 16 →
    encode (.srar sh) = 0x00000605 ||| (BitVec.ofNat 32 sh <<< 4) ∧
    ∃ y : Half, y.toInt = ⌊(e.latch.operand.toInt : ℚ) / 2 ^ sh + (if sh = 0 then 0 else 1 / 2)⌋ ∧
      exec (.srar sh) s = .next { s with
        insts := s.insts.set s.sel { e with phase := .idle, done := true, result := y } }

/-! ## The block average (41_block_average) -/

/-- R161. AVG4: RESULT <- (sum + 8) >> 4 over the 16 samples; memory and everything but ACC unchanged; at acceptance, a
stride below 4 is MF3 and a sample outside memory MF1. -/
def Obligations.Avg4IsTheRoundedMean : Prop :=
  encode .avg4 = 0x00000001 ∧
  (∀ (s : State) (e : Inst), s.insts[s.sel]? = some e → 4 ≤ e.latch.stride.toNat →
    (∀ r < 4, ∀ c < 4, admits s.memAdmit (e.latch.src.toNat + r * e.latch.stride.toNat + c) = true) →
    s.ownershipOk s.sel .avg4 e.latch →
    ∃ acc y : Half,
      y.toNat = (∑ r ∈ Finset.range 4, ∑ c ∈ Finset.range 4,
        (s.mem.read (e.latch.src.toNat + r * e.latch.stride.toNat + c)).toNat + 8) / 16 ∧
      exec .avg4 s = .next { s with
        insts := s.insts.set s.sel { e with phase := .idle, done := true, acc := acc, result := y } }) ∧
  (∀ (s : State) (k : Nat) (e : Inst), e.stride.toNat < 4 → accept s k e .avg4 = .fault (.mf3 (e.latchFor .avg4))) ∧
  (∀ (s : State) (k : Nat) (e : Inst), 4 ≤ e.stride.toNat →
    (∃ r < 4, ∃ c < 4, admits s.memAdmit (e.src.toNat + r * e.stride.toNat + c) = false) →
      accept s k e .avg4 = .fault (.mf1 (e.latchFor .avg4)))

/-- R162. AVG8: RESULT <- (sum + 32) >> 6 over the 64 samples; memory and everything but ACC unchanged; at acceptance, a
stride below 8 is MF3 and a sample outside memory MF1. -/
def Obligations.Avg8IsTheRoundedMean : Prop :=
  encode .avg8 = 0x00000002 ∧
  (∀ (s : State) (e : Inst), s.insts[s.sel]? = some e → 8 ≤ e.latch.stride.toNat →
    (∀ r < 8, ∀ c < 8, admits s.memAdmit (e.latch.src.toNat + r * e.latch.stride.toNat + c) = true) →
    s.ownershipOk s.sel .avg8 e.latch →
    ∃ acc y : Half,
      y.toNat = (∑ r ∈ Finset.range 8, ∑ c ∈ Finset.range 8,
        (s.mem.read (e.latch.src.toNat + r * e.latch.stride.toNat + c)).toNat + 32) / 64 ∧
      exec .avg8 s = .next { s with
        insts := s.insts.set s.sel { e with phase := .idle, done := true, acc := acc, result := y } }) ∧
  (∀ (s : State) (k : Nat) (e : Inst), e.stride.toNat < 8 → accept s k e .avg8 = .fault (.mf3 (e.latchFor .avg8))) ∧
  (∀ (s : State) (k : Nat) (e : Inst), 8 ≤ e.stride.toNat →
    (∃ r < 8, ∃ c < 8, admits s.memAdmit (e.src.toNat + r * e.stride.toNat + c) = false) →
      accept s k e .avg8 = .fault (.mf1 (e.latchFor .avg8)))

/-- R160, R163. ACC holds the exact sum after an average: it never wraps. That it is left there is the model's reading of
R160's pseudocode (log 8). -/
def Obligations.AccumulatorHoldsTheExactSum : Prop :=
  ∀ (s t : State) (e f : Inst) (i : Instr) (n : Nat), (i = .avg4 ∧ n = 4) ∨ (i = .avg8 ∧ n = 8) →
    s.insts[s.sel]? = some e → exec i s = .next t → t.insts[s.sel]? = some f →
      f.acc.toNat = ∑ r ∈ Finset.range n, ∑ c ∈ Finset.range n,
        (s.mem.read (e.latch.src.toNat + r * e.latch.stride.toNat + c)).toNat

/-- R164, R165. After an average the result is at most 255, so RESULT[15:8] and RESULT[31:16] read 0, and the average of
a uniform block is its value. -/
def Obligations.AverageInRangeAndExactOnUniformBlocks : Prop :=
  ∀ (s t : State) (e f : Inst) (i : Instr) (n : Nat), (i = .avg4 ∧ n = 4) ∨ (i = .avg8 ∧ n = 8) →
    s.insts[s.sel]? = some e → exec i s = .next t → t.insts[s.sel]? = some f →
      f.result.toNat ≤ 255 ∧ (f.readSlot .result).toNat / 256 = 0 ∧
      ∀ v : Byte, (∀ r < n, ∀ c < n, s.mem.read (e.latch.src.toNat + r * e.latch.stride.toNat + c) = v) →
        f.result.toNat = v.toNat

/-! ## The Hadamard networks (42_hadamard8x8, 43_hadamard16x16) -/

/-- R181. The three butterfly stages are the order-8 transform, reduced to 16 bits once; twice it is 8 times the vector;
and any two stages commute, so their order does not count. -/
def Obligations.Bf8IsTheWalshTransform : Prop :=
  ∀ (a : Nat → Half) (k : Nat), k < 8 →
    bf8 a k = wrap16 (∑ j ∈ Finset.range 8, walsh k j * sext16 (a j)) ∧
    bf8 (bf8 a) k = wrap16 (8 * sext16 (a k)) ∧
    ∀ g ∈ [1, 2, 4], ∀ h ∈ [1, 2, 4], bfStage g (bfStage h a) k = bfStage h (bfStage g a) k

/-- R183. HAD8 completes with H8 · X · H8 of the input as it stood, in 16 bits, at the output's addresses, and changes no
other byte; RESULT and everything else are unchanged but for the completion and W, which is a free value (log 7). -/
def Obligations.Had8WritesTheTransform : Prop :=
  ∀ (s : State) (e : Inst), s.insts[s.sel]? = some e → s.mem.wf = true →
    e.latch.src.toNat % 2 = 0 → e.latch.dst.toNat % 2 = 0 → 8 ≤ e.latch.stride.toNat →
    (∀ r < 8, ∀ c < 8, ∀ b < 2,
      admits s.memAdmit (e.latch.src.toNat + 2 * (r * e.latch.stride.toNat + c) + b) = true ∧
      admits s.memAdmit (e.latch.dst.toNat + 2 * (r * e.latch.stride.toNat + c) + b) = true) →
    s.ownershipOk s.sel .had8 e.latch →
    ∃ (t : State) (w : Work), exec .had8 s = .next t ∧
      (∀ u < 8, ∀ v < 8,
        t.mem.readHalf (e.latch.dst.toNat + 2 * (u * e.latch.stride.toNat + v)) =
          wrap16 (walsh8 (fun r c => s.mem.readHalf (e.latch.src.toNat + 2 * (r * e.latch.stride.toNat + c))) u v)) ∧
      (∀ a, (∀ u < 8, ∀ v < 8, ∀ b < 2, a ≠ e.latch.dst.toNat + 2 * (u * e.latch.stride.toNat + v) + b) →
        t.mem.read a = s.mem.read a) ∧
      t = { s with
        mem := t.mem
        fresh := t.fresh
        insts := s.insts.set s.sel { e with phase := .idle, done := true, work := w } }

/-- R186. HAD8 is linear, exactly, mod 2^16. -/
def Obligations.Had8IsLinear : Prop :=
  ∀ (a b : Int) (x y : Nat → Nat → Half) (u v : Nat), u < 8 → v < 8 →
    had8Grid (fun r c => wrap16 (a * sext16 (x r c) + b * sext16 (y r c))) u v =
      wrap16 (a * sext16 (had8Grid x u v) + b * sext16 (had8Grid y u v))

/-- R187. HAD8 twice is 64 times the block, element by element, mod 2^16. -/
def Obligations.Had8TwiceIsSixtyFourTimes : Prop :=
  ∀ (x : Nat → Nat → Half) (u v : Nat), u < 8 → v < 8 →
    had8Grid (had8Grid x) u v = wrap16 (64 * sext16 (x u v))

/-- R188. The impulse at (r0, c0) gives the basis pattern, and the zero block zero. -/
def Obligations.Had8OfAnImpulse : Prop :=
  (∀ r0 c0 u v : Nat, r0 < 8 → c0 < 8 → u < 8 → v < 8 →
    had8Grid (fun r c => if r = r0 ∧ c = c0 then 1 else 0) u v = wrap16 (walsh u r0 * walsh v c0)) ∧
  (∀ u v : Nat, u < 8 → v < 8 → had8Grid (fun _ _ => 0) u v = 0)

/-- R203. HAD16 completes with the four tile transforms of the input as it stood, each in 16 bits, combined exactly,
halved toward negative infinity and reduced to 16 bits, tile-major at the output, and changes no other byte; RESULT and
everything else are unchanged but for the completion and W, which is a free value (log 7). -/
def Obligations.Had16WritesTheCombinedTiles : Prop :=
  ∀ (s : State) (e : Inst), s.insts[s.sel]? = some e → s.mem.wf = true →
    e.latch.src.toNat % 2 = 0 → e.latch.dst.toNat % 2 = 0 → 16 ≤ e.latch.stride.toNat →
    (∀ r < 16, ∀ c < 16, ∀ b < 2,
      admits s.memAdmit (e.latch.src.toNat + 2 * (r * e.latch.stride.toNat + c) + b) = true) →
    (∀ n < 512, admits s.memAdmit (e.latch.dst.toNat + n) = true) →
    s.ownershipOk s.sel .had16 e.latch →
    ∃ (t : State) (w : Work), exec .had16 s = .next t ∧
      (∀ q < 4, ∀ u < 8, ∀ v < 8,
        t.mem.readHalf (e.latch.dst.toNat + 2 * (64 * q + 8 * u + v)) =
          wrap16 ((∑ j ∈ Finset.range 4, walsh q j * sext16 (wrap16 (walsh8 (fun r c =>
            s.mem.readHalf (e.latch.src.toNat + 2 * ((8 * (j / 2) + r) * e.latch.stride.toNat + (8 * (j % 2) + c))))
            u v))) / 2)) ∧
      (∀ a, a < e.latch.dst.toNat ∨ e.latch.dst.toNat + 512 ≤ a → t.mem.read a = s.mem.read a) ∧
      t = { s with
        mem := t.mem
        fresh := t.fresh
        insts := s.insts.set s.sel { e with phase := .idle, done := true, work := w } }

/-- R203, C10. The phase-2 sums are exact in 18 bits signed, whatever the four tile values. -/
def Obligations.PhaseTwoSumsFitEighteenBits : Prop :=
  ∀ (t : Nat) (a0 a1 a2 a3 : Half),
    -131072 ≤ combine t (sext16 a0) (sext16 a1) (sext16 a2) (sext16 a3) ∧
    combine t (sext16 a0) (sext16 a1) (sext16 a2) (sext16 a3) ≤ 131070

/-- R206. Where no tile value wraps, HAD16 is the natural-order 16×16 transform, halved toward negative infinity and
stored tile-major. -/
def Obligations.Had16IsTheHalvedWalshTransform : Prop :=
  ∀ (x : Nat → Nat → Half), (∀ q < 4, ∀ u < 8, ∀ v < 8, |walsh8 (tile x q) u v| ≤ 32767) →
    ∀ q < 4, ∀ u < 8, ∀ v < 8,
      phase2 (phase1 (Work.ofFn (fun n => x (n / 16) (n % 16)))) q u v =
        wrap16 (walsh16 x (8 * (q / 2) + u) (8 * (q % 2) + v) / 2)

/-- R208. A phase-1 tile is what HAD8 gives on the input's quadrant, read from the quadrant's own base at the same
stride. -/
def Obligations.PhaseOneTilesAreHad8OfQuadrants : Prop :=
  ∀ (m : Memory) (L Q : Latch) (q u v : Nat), q < 4 → u < 8 → v < 8 → Q.stride = L.stride →
    Q.src.toNat = L.src.toNat + 2 * (8 * (q / 2) * L.stride.toNat + 8 * (q % 2)) →
      (phase1 (load16 m L)).grid8 (64 * q) u v = had8Grid (coef m Q Q.src) u v

/-- R209. The input with 1 at (0, 0) and at (8, 0) gives 1 in tiles 0 and 1 and 0 in tiles 2 and 3, at every position. -/
def Obligations.RescaleComesAfterTheCombination : Prop :=
  ∀ q < 4, ∀ u < 8, ∀ v < 8,
    phase2 (phase1 (Work.ofFn (fun n => if n = 0 ∨ n = 128 then 1 else 0))) q u v = if q < 2 then 1 else 0

/-! ## Operands (20_memory) -/

/-- R73 to R75, R78. The bytes of each command's input and output regions, and the least strides. -/
def Obligations.RegionsAreThoseOfTheAddressingRules : Prop :=
  ∀ (L : Latch) (a : Nat),
    (a ∈ inputBytes .avg4 L ↔ ∃ r < 4, ∃ c < 4, a = L.src.toNat + r * L.stride.toNat + c) ∧
    (a ∈ inputBytes .avg8 L ↔ ∃ r < 8, ∃ c < 8, a = L.src.toNat + r * L.stride.toNat + c) ∧
    (a ∈ inputBytes .had8 L ↔ ∃ r < 8, ∃ c < 8, ∃ b < 2, a = L.src.toNat + 2 * (r * L.stride.toNat + c) + b) ∧
    (a ∈ inputBytes .had16 L ↔ ∃ r < 16, ∃ c < 16, ∃ b < 2, a = L.src.toNat + 2 * (r * L.stride.toNat + c) + b) ∧
    (a ∈ outputBytes .had8 L ↔ ∃ u < 8, ∃ v < 8, ∃ b < 2, a = L.dst.toNat + 2 * (u * L.stride.toNat + v) + b) ∧
    (a ∈ outputBytes .had16 L ↔ L.dst.toNat ≤ a ∧ a < L.dst.toNat + 512) ∧
    (∀ i, i = .avg4 ∨ i = .avg8 → outputBytes i L = []) ∧
    (∀ i sh, i = .shl sh ∨ i = .shr sh ∨ i = .shrr sh ∨ i = .sra sh ∨ i = .srar sh →
      inputBytes i L = [] ∧ outputBytes i L = [] ∧ minStride i = 0) ∧
    minStride .avg4 = 4 ∧ minStride .avg8 = 8 ∧ minStride .had8 = 8 ∧ minStride .had16 = 16

/-- R72. Little-endian, low byte at the lower address, one write after the other, and no other byte. -/
def Obligations.CoefficientsAreLittleEndian : Prop :=
  ∀ (m : Memory) (a v : Nat), m.wf = true →
    m.readBytes a 2 = (m.read a).toNat + 256 * (m.read (a + 1)).toNat ∧
    ((m.writeBytes a 2 v).read a).toNat = v % 256 ∧
    ((m.writeBytes a 2 v).read (a + 1)).toNat = v / 256 % 256 ∧
    (∀ b, b ≠ a → b ≠ a + 1 → (m.writeBytes a 2 v).read b = m.read b) ∧
    sext16 (m.readHalf a) =
      if m.readBytes a 2 < 32768 then (m.readBytes a 2 : Int) else (m.readBytes a 2 : Int) - 65536

/-- Memories in canonical form that read the same at every address are the same data (the form is the model's choice,
log 5). -/
def Obligations.CanonicalMemoriesAreExtensional : Prop :=
  ∀ m n : Memory, m.wf = true → n.wf = true → (∀ a, m.read a = n.read a) → m = n

/-! ## The register window (10_state) -/

/-- R45, R76 to R78, R224. A host write of w to CMD, in every case: COLLIDE while busy; ILLEGAL for an illegal word; for a
legal one the first precondition that fails, in the order MF2, MF3, MF1; else acceptance. That MF1 looks at both bytes of
a coefficient is the model's reading (log 10). -/
def Obligations.CmdWriteIsTheCommandLogic : Prop :=
  ∀ (s : State) (k : Nat) (e : Inst) (v : Nat), s.Inv → s.insts[k]? = some e → s.hostNext (.write e.base 4 v) →
    (e.phase = .busy → step s = .next { s.hostUsed with insts := s.insts.set k { e with collide := true } }) ∧
    (e.phase = .idle → ∀ x, decode (BitVec.ofNat 32 v) = .error x →
      step s = .next { s.hostUsed with insts := s.insts.set k { e with illegal := true } }) ∧
    (e.phase = .idle → ∀ (i : Instr) (L : Latch), decode (BitVec.ofNat 32 v) = .ok i →
      L = { op := i, src := e.src, dst := e.dst, stride := e.stride, operand := e.operand } →
      let odd := (i = .had8 ∨ i = .had16) ∧ (e.src.toNat % 2 = 1 ∨ e.dst.toNat % 2 = 1)
      let narrow := e.stride.toNat < minStride i
      let outside := ∃ a, (a ∈ inputBytes i L ∨ a ∈ outputBytes i L) ∧ admits s.memAdmit a = false
      (odd → step s = .fault (.mf2 L)) ∧
      (¬ odd → narrow → step s = .fault (.mf3 L)) ∧
      (¬ odd → ¬ narrow → outside → step s = .fault (.mf1 L)) ∧
      (¬ odd → ¬ narrow → ¬ outside → step s = .next { s.hostUsed with
        insts := s.insts.set k { e with latch := L, done := false, phase := .busy } }))

/-- R35. The fields of STATUS, its read, and its write: bits 1, 2 and 3 clear by writing 1, and nothing else changes. -/
def Obligations.StatusFieldsAndWriteOneToClear : Prop :=
  (∀ e : Inst, e.statusWord.toNat =
    (if e.phase = .busy then 1 else 0) + (if e.done then 2 else 0) + (if e.illegal then 4 else 0) +
      (if e.collide then 8 else 0)) ∧
  (∀ (s : State) (k : Nat) (e : Inst) (v : Nat), s.Inv → s.insts[k]? = some e →
    (s.hostNext (.read (e.base + 4) 4) → step s = .next { s.hostUsed with hostRead := e.statusWord.toNat }) ∧
    (s.hostNext (.write (e.base + 4) 4 v) → step s = .next { s.hostUsed with
      insts := s.insts.set k { e with
        done := e.done && !v.testBit 1
        illegal := e.illegal && !v.testBit 2
        collide := e.collide && !v.testBit 3 } }))

/-- R33. The map of the window: what a read of each slot returns, what a write of each slot other than CMD and STATUS
does, the values after reset, and MF5 for any access that is not an aligned 32-bit access. That it is MF5 also where the
access lies partly in memory is the model's reading (log 14), and that MF5 comes before MF4 its choice (log 29). -/
def Obligations.RegisterWindowMap : Prop :=
  (∀ (s : State) (k : Nat) (e : Inst), s.Inv → s.insts[k]? = some e →
    (∀ off value, (off, value) ∈ [(0x00, 0), (0x04, e.statusWord.toNat), (0x08, e.src.toNat), (0x0C, e.dst.toNat),
        (0x10, e.stride.toNat), (0x14, e.operand.toNat), (0x18, e.result.toNat), (0x1C, 0)] →
      s.hostNext (.read (e.base + off) 4) → step s = .next { s.hostUsed with hostRead := value }) ∧
    (∀ v : Nat,
      (s.hostNext (.write (e.base + 0x08) 4 v) → step s = .next { s.hostUsed with
        insts := s.insts.set k { e with src := BitVec.ofNat 32 v } }) ∧
      (s.hostNext (.write (e.base + 0x0C) 4 v) → step s = .next { s.hostUsed with
        insts := s.insts.set k { e with dst := BitVec.ofNat 32 v } }) ∧
      (s.hostNext (.write (e.base + 0x10) 4 v) → step s = .next { s.hostUsed with
        insts := s.insts.set k { e with stride := BitVec.ofNat 16 v } }) ∧
      (s.hostNext (.write (e.base + 0x14) 4 v) → step s = .next { s.hostUsed with
        insts := s.insts.set k { e with operand := BitVec.ofNat 16 v } }) ∧
      (s.hostNext (.write (e.base + 0x18) 4 v) ∨ s.hostNext (.write (e.base + 0x1C) 4 v) → step s = .next s.hostUsed)) ∧
    (∀ addr n v : Nat, (∃ a, addr ≤ a ∧ a < addr + n ∧ e.base ≤ a ∧ a < e.base + 32) → n ≠ 4 ∨ addr % 4 ≠ 0 →
      (s.hostNext (.read addr n) → step s = .fault (.mf5 ⟨.host, .read, addr, n⟩)) ∧
      (s.hostNext (.write addr n v) → step s = .fault (.mf5 ⟨.host, .write, addr, n⟩)))) ∧
  (∀ (b : Nat) (slot : Slot), (Inst.reset b).readSlot slot = 0)

/-! ## Flags, latch and result over every step -/

/-- R42. BUSY reads 1 exactly while the phase is busy; it is set by acceptance, and cleared by the unit's completion or
reset, and by nothing else. -/
def Obligations.BusyChangesOnlyAtAcceptanceCompletionReset : Prop :=
  (∀ e : Inst, e.statusWord.getLsbD 0 = true ↔ e.phase = .busy) ∧
  (∀ (s t : State) (k : Nat) (e f : Inst), s.Inv → step s = .next t → s.insts[k]? = some e → t.insts[k]? = some f →
    (e.phase = .idle →
      (f.phase = .busy ↔ ∃ v i, s.hostNext (.write e.base 4 v) ∧ decode (BitVec.ofNat 32 v) = .ok i)) ∧
    (e.phase = .busy → (f.phase = .idle ↔ s.mover = .engine k ∨ s.mover = .reset k)))

/-- R43. DONE is set by completion, and cleared by acceptance, by a STATUS write with bit 1 set and by reset, and by
nothing else. -/
def Obligations.DoneChangesOnlyAtItsCauses : Prop :=
  ∀ (s t : State) (k : Nat) (e f : Inst), s.Inv → step s = .next t → s.insts[k]? = some e → t.insts[k]? = some f →
    (e.done = false → (f.done = true ↔ s.mover = .engine k ∧ e.phase = .busy)) ∧
    (e.done = true → (f.done = false ↔
      (e.phase = .idle ∧ f.phase = .busy) ∨ s.mover = .reset k ∨
        ∃ v, s.hostNext (.write (e.base + 4) 4 v) ∧ v.testBit 1 = true))

/-- R44. ILLEGAL is set only by a CMD write of an illegal word while idle, COLLIDE only by a CMD write while busy, and
each is cleared only by a STATUS write with its bit set or by reset. -/
def Obligations.ErrorFlagsAreSticky : Prop :=
  ∀ (s t : State) (k : Nat) (e f : Inst), s.Inv → step s = .next t → s.insts[k]? = some e → t.insts[k]? = some f →
    (e.illegal = false → (f.illegal = true ↔
      e.phase = .idle ∧ ∃ v x, s.hostNext (.write e.base 4 v) ∧ decode (BitVec.ofNat 32 v) = .error x)) ∧
    (e.collide = false → (f.collide = true ↔ e.phase = .busy ∧ ∃ v, s.hostNext (.write e.base 4 v))) ∧
    (e.illegal = true → (f.illegal = false ↔
      s.mover = .reset k ∨ ∃ v, s.hostNext (.write (e.base + 4) 4 v) ∧ v.testBit 2 = true)) ∧
    (e.collide = true → (f.collide = false ↔
      s.mover = .reset k ∨ ∃ v, s.hostNext (.write (e.base + 4) 4 v) ∧ v.testBit 3 = true))

/-- R46. The latch changes only when acceptance loads it, with the decoded command and the registers as they stand, or at
a reset (whose value for it is the model's choice, log 6). -/
def Obligations.LatchIsLoadedOnlyByAcceptance : Prop :=
  ∀ (s t : State) (k : Nat) (e f : Inst), s.Inv → step s = .next t → s.insts[k]? = some e → t.insts[k]? = some f →
    f.latch ≠ e.latch → s.mover ≠ .reset k →
      e.phase = .idle ∧ f.phase = .busy ∧ ∃ v i, s.hostNext (.write e.base 4 v) ∧ decode (BitVec.ofNat 32 v) = .ok i ∧
        f.latch = { op := i, src := e.src, dst := e.dst, stride := e.stride, operand := e.operand }

/-- R40. RESULT changes only at the completion of an average or a shift, or at a reset. -/
def Obligations.ResultIsWrittenOnlyAtCompletion : Prop :=
  ∀ (s t : State) (k : Nat) (e f : Inst), s.Inv → step s = .next t → s.insts[k]? = some e → t.insts[k]? = some f →
    f.result ≠ e.result → s.mover ≠ .reset k →
      s.mover = .engine k ∧ e.phase = .busy ∧ e.latch.op ≠ .had8 ∧ e.latch.op ≠ .had16

/-- R231. A step changes at most one unit, never a window's place, never the number of units, never MEM_ADMIT. That a
reset, too, reaches one unit a step is the model's choice (log 22). -/
def Obligations.StepTouchesAtMostOneUnit : Prop :=
  ∀ s t : State, step s = .next t →
    (∃ k : Nat, ∀ j : Nat, j ≠ k → t.insts[j]? = s.insts[j]?) ∧ t.insts.map Inst.base = s.insts.map Inst.base ∧ t.memAdmit = s.memAdmit

/-! ## Memory over every step -/

/-- R70, R166, R251. A byte changes only by a host write of it, by a completion of HAD8 or HAD16 whose output region it is
in, or by the reset of a unit that runs one. -/
def Obligations.MemoryChangesOnlyWhereItMay : Prop :=
  ∀ (s t : State) (a : Nat), s.Inv → step s = .next t → t.mem.read a ≠ s.mem.read a →
    (∃ addr n v, s.hostNext (.write addr n v) ∧ addr ≤ a ∧ a < addr + n) ∨
    (∃ k e, (s.mover = .engine k ∨ s.mover = .reset k) ∧ s.insts[k]? = some e ∧ e.phase = .busy ∧
      (e.latch.op = .had8 ∨ e.latch.op = .had16) ∧ a ∈ outputBytes e.latch.op e.latch)

/-- R88, R89. While a command runs, no step that goes on, other than its own completion or a reset, changes a byte of its
input or output region or its latch. -/
def Obligations.RegionsAreStableWhileBusy : Prop :=
  ∀ (s t : State) (k : Nat) (e : Inst) (a : Nat), s.Inv → step s = .next t → s.insts[k]? = some e → e.phase = .busy →
    s.mover ≠ .engine k → (∀ j, s.mover ≠ .reset j) →
    (a ∈ inputBytes e.latch.op e.latch ∨ a ∈ outputBytes e.latch.op e.latch) →
      t.mem.read a = s.mem.read a ∧ ∃ f, t.insts[k]? = some f ∧ f.phase = .busy ∧ f.latch = e.latch

/-- R88, R95. Interference is MF4: a host write of a byte of a running command's input or output region and a host read
of a byte of its output region, whatever the access's other bytes of no window are, and another unit's completion that
does either (raised at the completion: log 11). Any other access to memory goes on (also one of no bytes: log 27). -/
def Obligations.InterferenceIsAFault : Prop :=
  (∀ (s : State) (addr n v : Nat), s.Inv → s.hostNext (.write addr n v) →
    ((∀ e ∈ s.insts, ∀ a, addr ≤ a → a < addr + n → ¬ (e.base ≤ a ∧ a < e.base + 32)) →
      (∃ e ∈ s.insts, e.phase = .busy ∧ ∃ a, addr ≤ a ∧ a < addr + n ∧
        (a ∈ inputBytes e.latch.op e.latch ∨ a ∈ outputBytes e.latch.op e.latch)) →
      step s = .fault (.mf4 ⟨.host, .write, addr, n⟩)) ∧
    ((∀ a, addr ≤ a → a < addr + n → admits s.memAdmit a = true) →
      (∀ e ∈ s.insts, e.phase = .busy → ∀ a, addr ≤ a → a < addr + n →
        a ∉ inputBytes e.latch.op e.latch ∧ a ∉ outputBytes e.latch.op e.latch) →
      step s = .next { s.hostUsed with mem := s.mem.writeBytes addr n v })) ∧
  (∀ (s : State) (addr n : Nat), s.Inv → s.hostNext (.read addr n) →
    ((∀ e ∈ s.insts, ∀ a, addr ≤ a → a < addr + n → ¬ (e.base ≤ a ∧ a < e.base + 32)) →
      (∃ e ∈ s.insts, e.phase = .busy ∧ ∃ a, addr ≤ a ∧ a < addr + n ∧ a ∈ outputBytes e.latch.op e.latch) →
      step s = .fault (.mf4 ⟨.host, .read, addr, n⟩)) ∧
    ((∀ a, addr ≤ a → a < addr + n → admits s.memAdmit a = true) →
      (∀ e ∈ s.insts, e.phase = .busy → ∀ a, addr ≤ a → a < addr + n → a ∉ outputBytes e.latch.op e.latch) →
      step s = .next { s.hostUsed with hostRead := s.mem.readBytes addr n })) ∧
  (∀ (s : State) (k : Nat) (e : Inst), s.Inv → s.mover = .engine k → s.insts[k]? = some e → e.phase = .busy →
    (¬ s.ownershipOk k e.latch.op e.latch → ∃ a, step s = .fault (.mf4 a) ∧ a.agent = .engine k) ∧
    (s.ownershipOk k e.latch.op e.latch → ∃ t, step s = .next t))

/-- A host access that touches no window, breaks no running command's ownership and has a byte outside ordinary memory is
refused by name (the model's choice, log 13). -/
def Obligations.UnbackedHostAccessIsRefused : Prop :=
  ∀ (s : State) (addr n v : Nat), (∃ a, addr ≤ a ∧ a < addr + n ∧ admits s.memAdmit a = false) →
    (∀ e ∈ s.insts, ∀ a, addr ≤ a → a < addr + n → ¬ (e.base ≤ a ∧ a < e.base + 32)) →
    (s.hostNext (.read addr n) →
      (∀ e ∈ s.insts, e.phase = .busy → ∀ a, addr ≤ a → a < addr + n → a ∉ outputBytes e.latch.op e.latch) →
      step s = .refused (.hostUnbacked ⟨.host, .read, addr, n⟩)) ∧
    (s.hostNext (.write addr n v) →
      (∀ e ∈ s.insts, e.phase = .busy → ∀ a, addr ≤ a → a < addr + n →
        a ∉ inputBytes e.latch.op e.latch ∧ a ∉ outputBytes e.latch.op e.latch) →
      step s = .refused (.hostUnbacked ⟨.host, .write, addr, n⟩))

/-! ## Steps and commands -/

/-- R110. WAIT reads STATUS again as long as bit 0 of the value read is 1, and ends once it reads 0. -/
def Obligations.WaitReadsStatusUntilIdle : Prop :=
  ∀ (s : State) (k : Nat) (e : Inst), s.Inv → s.insts[k]? = some e → s.hostNext (.wait e.base) →
    (e.phase = .busy → step s = .next { s.turnUsed with hostRead := e.statusWord.toNat }) ∧
    (e.phase = .idle → step s = .next { s.hostUsed with hostRead := e.statusWord.toNat })

/-- R47. The engine step of a busy unit is the completion of its latched command. That the turn of an idle unit's engine
answers a next state, in which only the turn is used up, is the model's choice (log 18). -/
def Obligations.EngineStepRunsTheLatchedCommand : Prop :=
  ∀ (s : State) (k : Nat) (e : Inst), s.mover = .engine k → s.insts[k]? = some e →
    (e.phase = .busy → step s = exec e.latch.op { s.turnUsed with sel := k }) ∧
    (e.phase = .idle → step s = .next s.turnUsed)

/-- A command word placed where the next command is taken from runs in the next step, as the command it decodes to, on
the registers as they stand (log 3). -/
def Obligations.PlacedWordIsRunNext : Prop :=
  ∀ (s : State) (e : Inst) (nbits w : Nat) (i : Instr), s.insts[s.sel]? = some e → decodeTableWord nbits w = some i →
    step (s.withFetchWord nbits w) = exec i { s with
      insts := s.insts.set s.sel { e with
        latch := { op := i, src := e.src, dst := e.dst, stride := e.stride, operand := e.operand }
        phase := .busy
        done := false } }

/-- R256. The running command is not affected by the registers: on a unit with other values in SRC, DST, STRIDE and
OPERAND, a completion does the same, and leaves those registers as they are. -/
def Obligations.RegistersMayBeRewrittenWhileBusy : Prop :=
  ∀ (s : State) (e : Inst) (i : Instr) (src dst : Word) (stride operand : Half), s.insts[s.sel]? = some e →
    let s' := s.setUnit s.sel { e with src := src, dst := dst, stride := stride, operand := operand }
    (∀ t, exec i s = .next t → ∃ f, t.insts[s.sel]? = some f ∧
      f.src = e.src ∧ f.dst = e.dst ∧ f.stride = e.stride ∧ f.operand = e.operand ∧
      exec i s' = .next (t.setUnit s.sel { f with src := src, dst := dst, stride := stride, operand := operand })) ∧
    (∀ x, exec i s = .fault x → exec i s' = .fault x)

/-- R223. No value in memory, in the operand or in W makes a command stop: whether it completes is settled by its
addresses, its stride and the other running commands. -/
def Obligations.OverflowIsNoFault : Prop :=
  ∀ (s t : State) (e : Inst) (i : Instr) (m : Memory) (x : Half) (w : Work), s.insts[s.sel]? = some e →
    exec i s = .next t →
      ∃ t', exec i ({ s with mem := m }.setUnit s.sel { e with latch := { e.latch with operand := x }, work := w }) =
        .next t'

/-- A completion whose latch breaks a precondition stops, in the order MF2, MF3, MF1 (the model's choice, log 9; no run
reaches it; both bytes of a coefficient count, log 10). -/
def Obligations.CompletionStopsOnBrokenPreconditions : Prop :=
  ∀ (s : State) (e : Inst) (i : Instr), s.insts[s.sel]? = some e →
    let odd := (i = .had8 ∨ i = .had16) ∧ (e.latch.src.toNat % 2 = 1 ∨ e.latch.dst.toNat % 2 = 1)
    let narrow := e.latch.stride.toNat < minStride i
    let outside := ∃ a, (a ∈ inputBytes i e.latch ∨ a ∈ outputBytes i e.latch) ∧ admits s.memAdmit a = false
    (odd → exec i s = .fault (.mf2 e.latch)) ∧
    (¬ odd → narrow → exec i s = .fault (.mf3 e.latch)) ∧
    (¬ odd → ¬ narrow → outside → exec i s = .fault (.mf1 e.latch))

/-- R110, R47, R86. RUN on an idle machine with no order fixed: the CMD write is accepted, the engine completes the
command, and WAIT then reads STATUS with BUSY 0 and DONE 1 and ends. The order is the model's choice (log 2). -/
def Obligations.RunCompletesAndWaitEnds : Prop :=
  ∀ (s : State) (k : Nat) (e : Inst) (i : Instr) (rest : List HostStep), s.Inv → s.insts[k]? = some e → s.turns = [] →
    (∀ f ∈ s.insts, f.phase = .idle) → s.host = hostRun e.base i ++ rest → i.wf = true →
    preFault s.memAdmit i (e.latchFor i) = none →
    ∃ t, Sys2Proof.core.run 2 s = .next t ∧
      exec i { s with
        sel := k
        host := .wait e.base :: rest
        insts := s.insts.set k { e with latch := e.latchFor i, phase := .busy, done := false } } = .next t ∧
      Sys2Proof.core.run 3 s = .next { t with
        host := rest
        hostRead := 2 + (if e.illegal then 4 else 0) + (if e.collide then 8 else 0) }

/-- R47, R262. From every state of the invariant a busy unit becomes idle within as many steps as turns are fixed and
units exist, unless the run stops first. That the engine moves when no turn is fixed is the model's choice (log 2). -/
def Obligations.BusyUnitCompletesInBoundedSteps : Prop :=
  ∀ (s : State) (k : Nat) (e : Inst), s.Inv → s.insts[k]? = some e → e.phase = .busy →
    ∃ n ≤ s.turns.length + s.insts.length,
      match Sys2Proof.core.run n s with
      | .next t => ∀ f, t.insts[k]? = some f → f.phase = .idle
      | .fault _ => True
      | .refused _ => True

/-! ## Reset and the invariant (70_reset) -/

/-- R52. Every register and flag after reset, on every platform, and that a command accepted before STRIDE is written is
MF3 (an odd address of HAD8 or HAD16, which R224 puts first, is MF2). State.reset is one such platform. -/
def Obligations.ResetValues : Prop :=
  (∀ (bases : List Nat) (memAdmit : List Region), ∀ e ∈ (State.resetWith bases memAdmit).insts,
    e.phase = .idle ∧ e.statusWord = 0 ∧ e.src = 0 ∧ e.dst = 0 ∧ e.stride = 0 ∧ e.operand = 0 ∧ e.result = 0 ∧
      e.readSlot .cmd = 0 ∧ e.readSlot .reserved = 0) ∧
  (∀ (s : State) (k : Nat) (e : Inst) (i : Instr), e.stride = 0 → i = .avg4 ∨ i = .avg8 ∨ i = .had8 ∨ i = .had16 →
    accept s k e i = .fault (.mf3 (e.latchFor i)) ∨
      ((i = .had8 ∨ i = .had16) ∧ (e.src.toNat % 2 = 1 ∨ e.dst.toNat % 2 = 1) ∧
        accept s k e i = .fault (.mf2 (e.latchFor i)))) ∧
  ∃ bases memAdmit, State.reset = State.resetWith bases memAdmit

/-- R250, R251. Reset of a unit, at any time: every register and flag at its reset value, the engine idle; memory is
unchanged when the unit was idle; when it was busy, only its output region may change, and each of those bytes is a free
value. Nothing is said of the latch, W and ACC, whose values are the model's (log 6). The form of the free bytes (log 12),
that the reset reaches this unit only (log 22) and that it is never MF4 (log 28) are the model's choices. -/
def Obligations.ResetAbortsTheRunningCommand : Prop :=
  ∀ (s : State) (k : Nat) (e : Inst), s.Inv → s.mover = .reset k → s.insts[k]? = some e →
    ∃ (t : State) (f : Inst), step s = .next t ∧
      f = { base := e.base, phase := .idle, done := false, illegal := false, collide := false, src := 0, dst := 0,
            stride := 0, operand := 0, result := 0, latch := f.latch, work := f.work, acc := f.acc } ∧
      t = { s.turnUsed with insts := s.insts.set k f, mem := t.mem, fresh := t.fresh } ∧
      (e.phase = .idle → t.mem = s.mem) ∧
      (∀ a, a ∉ outputBytes e.latch.op e.latch → t.mem.read a = s.mem.read a) ∧
      (e.phase = .busy → ∀ a ∈ outputBytes e.latch.op e.latch, ∃ n, s.fresh ≤ n ∧ t.mem.read a = Config.freeByte n)

/-- The invariant holds after reset, on the model's own choice of platform (log 4, log 5). -/
def Obligations.ResetMeetsTheInvariant : Prop := State.reset.Inv

/-- Every step that goes on keeps the invariant: memory canonical and only where memory is, windows apart, aligned and
outside memory, and, while a unit is busy, DONE 0 and the latched command well-formed with its preconditions met. -/
def Obligations.StepKeepsTheInvariant : Prop :=
  ∀ s t : State, s.Inv → step s = .next t → t.Inv
end

