-- ==== Sys2Proof/Laws/Memory.lean ====
section
/-! SUPPORT. Memory: what a read after a write gives, and that every operation keeps the canonical form. -/

namespace Sys2Proof.Machine

open Sys2Proof

/-! ## One byte -/

/-- Every address listed lies above `a`. -/
def Memory.above (m : Memory) (a : Nat) : Prop := ∀ c ∈ m, a < c.1

theorem wf_cons (c : Host.Cell) (m : Memory) :
    Memory.wf (c :: m) = true ↔ c.2 ≠ Config.unwritten ∧ Memory.above m c.1 ∧ Memory.wf m = true := by
  induction m generalizing c with
  | nil => simp [Memory.wf, Memory.above]
  | cons d m ih =>
    have ihd := ih d
    simp only [Memory.wf, Bool.and_eq_true, decide_eq_true_eq, bne_iff_ne, ne_eq] at ihd ⊢
    constructor
    · rintro ⟨⟨hlt, hc⟩, hd⟩
      refine ⟨hc, ?_, hd⟩
      intro x hx
      rcases List.mem_cons.1 hx with rfl | hx
      · exact hlt
      · exact lt_trans hlt ((ihd.1 hd).2.1 x hx)
    · rintro ⟨hc, ha, hd⟩
      exact ⟨⟨ha d (by simp), hc⟩, hd⟩

theorem read_above (m : Memory) (a : Nat) (h : Memory.above m a) : m.read a = Config.unwritten := by
  induction m with
  | nil => rfl
  | cons c m ih =>
    have hc : a < c.1 := h c (by simp)
    have : c.1 ≠ a := by omega
    simp only [Memory.read, this, if_false]
    exact ih (fun d hd => h d (by simp [hd]))

/-- What lies in memory after a write, at other addresses. -/
theorem read_write_other (m : Memory) (a b : Nat) (x : Byte) (h : b ≠ a) : (m.write a x).read b = m.read b := by
  induction m with
  | nil =>
    by_cases hx : x = Config.unwritten <;> simp [Memory.write, Memory.read, hx, h.symm]
  | cons c m ih =>
    by_cases h1 : a < c.1
    · by_cases hx : x = Config.unwritten <;> simp [Memory.write, Memory.read, h1, hx, h.symm]
    · by_cases h2 : a = c.1
      · by_cases hx : x = Config.unwritten
        · simp [Memory.write, Memory.read, hx, h2 ▸ h.symm, h2]
        · simp [Memory.write, Memory.read, hx, h2 ▸ h.symm, h2]
      · simp [Memory.write, Memory.read, h1, h2, ih]

/-- A read after a write to the same address gives the byte written. -/
theorem read_write_same (m : Memory) (a : Nat) (x : Byte) (hm : m.wf = true) : (m.write a x).read a = x := by
  induction m with
  | nil =>
    by_cases hx : x = Config.unwritten <;> simp [Memory.write, Memory.read, hx]
  | cons c m ih =>
    obtain ⟨hc, habove, hwf⟩ := (wf_cons c m).1 hm
    by_cases h1 : a < c.1
    · by_cases hx : x = Config.unwritten
      · have hab : Memory.above (c :: m) a := by
          intro d hd
          rcases List.mem_cons.1 hd with rfl | hd
          · exact h1
          · exact lt_trans h1 (habove d hd)
        have hw : Memory.write (c :: m) a x = c :: m := by simp [Memory.write, h1, hx]
        rw [hw, hx, read_above _ _ hab]
      · simp [Memory.write, Memory.read, h1, hx]
    · by_cases h2 : a = c.1
      · by_cases hx : x = Config.unwritten
        · have hw : Memory.write (c :: m) a x = m := by simp [Memory.write, h2, hx]
          rw [hw, hx, read_above _ _ (h2 ▸ habove)]
        · simp [Memory.write, Memory.read, h2, hx]
      · have h3 : c.1 ≠ a := fun h => h2 h.symm
        simp [Memory.write, Memory.read, h1, h2, h3, ih hwf]

theorem write_above (m : Memory) (k a : Nat) (x : Byte) (h : Memory.above m k) (ha : k < a) :
    Memory.above (m.write a x) k := by
  induction m with
  | nil =>
    intro c hc
    by_cases hx : x = Config.unwritten
    · simp [Memory.write, hx] at hc
    · simp [Memory.write, hx] at hc
      simpa [hc] using ha
  | cons d m ih =>
    have hd : k < d.1 := h d (by simp)
    have htail : Memory.above m k := fun c hc => h c (by simp [hc])
    intro c hc
    simp only [Memory.write] at hc
    split at hc
    · split at hc
      · exact h c hc
      · rcases List.mem_cons.1 hc with rfl | hc
        · exact ha
        · exact h c hc
    · split at hc
      · split at hc
        · exact htail c hc
        · rcases List.mem_cons.1 hc with rfl | hc
          · exact ha
          · exact htail c hc
      · rcases List.mem_cons.1 hc with rfl | hc
        · exact hd
        · exact ih htail c hc

/-- A write keeps the canonical form. -/
theorem write_wf (m : Memory) (a : Nat) (x : Byte) (hm : m.wf = true) : (m.write a x).wf = true := by
  induction m with
  | nil =>
    by_cases hx : x = Config.unwritten <;> simp [Memory.write, Memory.wf, hx]
  | cons c m ih =>
    obtain ⟨hc, habove, hwf⟩ := (wf_cons c m).1 hm
    simp only [Memory.write]
    split
    · rename_i h1
      split
      · exact hm
      · rename_i hx
        refine (wf_cons _ _).2 ⟨hx, ?_, hm⟩
        intro d hd
        rcases List.mem_cons.1 hd with rfl | hd
        · exact h1
        · exact lt_trans h1 (habove d hd)
    · rename_i h1
      split
      · rename_i h2
        split
        · exact hwf
        · rename_i hx
          exact (wf_cons _ _).2 ⟨hx, h2 ▸ habove, hwf⟩
      · rename_i h2
        exact (wf_cons _ _).2 ⟨hc, write_above m c.1 a x habove (by omega), ih hwf⟩

/-- A write lists no address but its own. -/
theorem mem_write (m : Memory) (a : Nat) (x : Byte) (c : Host.Cell) (h : c ∈ m.write a x) : c.1 = a ∨ c ∈ m := by
  induction m with
  | nil =>
    by_cases hx : x = Config.unwritten
    · simp [Memory.write, hx] at h
    · simp [Memory.write, hx] at h
      simp [h]
  | cons d m ih =>
    simp only [Memory.write] at h
    split at h
    · split at h
      · exact .inr h
      · rcases List.mem_cons.1 h with rfl | h
        · exact .inl rfl
        · exact .inr h
    · split at h
      · split at h
        · exact .inr (by simp [h])
        · rcases List.mem_cons.1 h with rfl | h
          · exact .inl rfl
          · exact .inr (by simp [h])
      · rcases List.mem_cons.1 h with rfl | h
        · exact .inr (by simp)
        · rcases ih h with h | h
          · exact .inl h
          · exact .inr (by simp [h])

/-! ## Several bytes -/

theorem readBytes_two (m : Memory) (a : Nat) :
    m.readBytes a 2 = (m.read a).toNat + 256 * (m.read (a + 1)).toNat := by
  simp [Memory.readBytes]

theorem writeBytes_two (m : Memory) (a v : Nat) :
    m.writeBytes a 2 v = (m.write a (BitVec.ofNat 8 v)).write (a + 1) (BitVec.ofNat 8 (v / 256)) := by
  simp [Memory.writeBytes]

theorem read_writeBytes_other (m : Memory) (a n v b : Nat) (h : b < a ∨ a + n ≤ b) :
    (m.writeBytes a n v).read b = m.read b := by
  induction n generalizing m a v with
  | zero => rfl
  | succ n ih =>
    rw [Memory.writeBytes, ih _ _ _ (by omega), read_write_other _ _ _ _ (by omega)]

theorem writeBytes_wf (m : Memory) (a n v : Nat) (hm : m.wf = true) : (m.writeBytes a n v).wf = true := by
  induction n generalizing m a v with
  | zero => exact hm
  | succ n ih => exact ih _ _ _ (write_wf _ _ _ hm)

theorem mem_writeBytes (m : Memory) (a n v : Nat) (c : Host.Cell) (h : c ∈ m.writeBytes a n v) :
    (a ≤ c.1 ∧ c.1 < a + n) ∨ c ∈ m := by
  induction n generalizing m a v with
  | zero => exact .inr h
  | succ n ih =>
    rcases ih _ _ _ h with h | h
    · exact .inl (by omega)
    · rcases mem_write _ _ _ _ h with h | h
      · exact .inl (by omega)
      · exact .inr h

/-! ## Coefficients -/

theorem readHalf_congr (m n : Memory) (a : Nat) (h0 : m.read a = n.read a) (h1 : m.read (a + 1) = n.read (a + 1)) :
    m.readHalf a = n.readHalf a := by
  simp [Memory.readHalf, readBytes_two, h0, h1]

theorem readHalf_writeHalf_same (m : Memory) (a : Nat) (x : Half) (hm : m.wf = true) :
    (m.writeHalf a x).readHalf a = x := by
  have h0 : (m.writeHalf a x).read a = BitVec.ofNat 8 x.toNat := by
    rw [Memory.writeHalf, writeBytes_two, read_write_other _ _ _ _ (by omega), read_write_same _ _ _ hm]
  have h1 : (m.writeHalf a x).read (a + 1) = BitVec.ofNat 8 (x.toNat / 256) := by
    rw [Memory.writeHalf, writeBytes_two, read_write_same _ _ _ (write_wf _ _ _ hm)]
  apply BitVec.eq_of_toNat_eq
  have hx := x.isLt
  simp only [Memory.readHalf, readBytes_two, h0, h1, BitVec.toNat_ofNat]
  omega

theorem readHalf_writeHalf_other (m : Memory) (a b : Nat) (x : Half) (h : b + 2 ≤ a ∨ a + 2 ≤ b) :
    (m.writeHalf a x).readHalf b = m.readHalf b := by
  apply readHalf_congr
  · exact read_writeBytes_other _ _ _ _ _ (by omega)
  · exact read_writeBytes_other _ _ _ _ _ (by omega)

theorem storeHalves_wf (m : Memory) (cs : List (Nat × Half)) (hm : m.wf = true) : (m.storeHalves cs).wf = true := by
  induction cs with
  | nil => exact hm
  | cons c cs ih => exact writeBytes_wf _ _ _ _ ih

/-- The store phase changes no byte outside its elements. -/
theorem read_storeHalves_other (m : Memory) (cs : List (Nat × Half)) (b : Nat)
    (h : ∀ c ∈ cs, b < c.1 ∨ c.1 + 2 ≤ b) : (m.storeHalves cs).read b = m.read b := by
  induction cs with
  | nil => rfl
  | cons c cs ih =>
    rw [Memory.storeHalves, Memory.writeHalf, read_writeBytes_other _ _ _ _ _ (h c (by simp))]
    exact ih (fun d hd => h d (by simp [hd]))

/-- Where the elements do not overlap, each holds its value after the store phase. -/
theorem readHalf_storeHalves (m : Memory) (cs : List (Nat × Half)) (hm : m.wf = true)
    (hapart : cs.Pairwise (fun c d => c.1 + 2 ≤ d.1 ∨ d.1 + 2 ≤ c.1)) (c : Nat × Half) (hc : c ∈ cs) :
    (m.storeHalves cs).readHalf c.1 = c.2 := by
  induction cs with
  | nil => simp at hc
  | cons d cs ih =>
    obtain ⟨hd, hrest⟩ := List.pairwise_cons.1 hapart
    rcases List.mem_cons.1 hc with rfl | hc
    · exact readHalf_writeHalf_same _ _ _ (storeHalves_wf _ _ hm)
    · rw [Memory.storeHalves, readHalf_writeHalf_other _ _ _ _ (by have := hd c hc; omega)]
      exact ih hrest hc

theorem mem_storeHalves (m : Memory) (cs : List (Nat × Half)) (x : Host.Cell) (h : x ∈ m.storeHalves cs) :
    (∃ c ∈ cs, c.1 ≤ x.1 ∧ x.1 < c.1 + 2) ∨ x ∈ m := by
  induction cs with
  | nil => exact .inr h
  | cons c cs ih =>
    rcases mem_writeBytes _ _ _ _ _ h with h | h
    · exact .inl ⟨c, by simp, h⟩
    · rcases ih h with ⟨d, hd, h⟩ | h
      · exact .inl ⟨d, by simp [hd], h⟩
      · exact .inr h

/-! ## The bytes of an aborted command -/

theorem scramble_wf (m : Memory) (n : Nat) (as : List Nat) (hm : m.wf = true) : (m.scramble n as).wf = true := by
  induction as generalizing m n with
  | nil => exact hm
  | cons a as ih => exact ih _ _ (write_wf _ _ _ hm)

theorem read_scramble_other (m : Memory) (n : Nat) (as : List Nat) (b : Nat) (h : b ∉ as) :
    (m.scramble n as).read b = m.read b := by
  induction as generalizing m n with
  | nil => rfl
  | cons a as ih =>
    simp only [List.mem_cons, not_or] at h
    rw [Memory.scramble, ih _ _ h.2, read_write_other _ _ _ _ h.1]

theorem mem_scramble (m : Memory) (n : Nat) (as : List Nat) (c : Host.Cell) (h : c ∈ m.scramble n as) :
    c.1 ∈ as ∨ c ∈ m := by
  induction as generalizing m n with
  | nil => exact .inr h
  | cons a as ih =>
    rcases ih _ _ h with h | h
    · exact .inl (by simp [h])
    · rcases mem_write _ _ _ _ h with h | h
      · exact .inl (by simp [h])
      · exact .inr h

end Sys2Proof.Machine
end

