-- ==== Sys2Proof/Laws/State.lean ====
section
/-! SUPPORT. One lemma per field and update of State and of a unit, all by rfl. -/

namespace Sys2Proof.Machine

open Sys2Proof

/-! ## Units of the state -/

@[simp] theorem setUnit_admit (s : State) (k : Nat) (e : Inst) : (s.setUnit k e).memAdmit = s.memAdmit := rfl
@[simp] theorem setUnit_insts (s : State) (k : Nat) (e : Inst) : (s.setUnit k e).insts = s.insts.set k e := rfl
@[simp] theorem setUnit_mem (s : State) (k : Nat) (e : Inst) : (s.setUnit k e).mem = s.mem := rfl
@[simp] theorem setUnit_host (s : State) (k : Nat) (e : Inst) : (s.setUnit k e).host = s.host := rfl
@[simp] theorem setUnit_turns (s : State) (k : Nat) (e : Inst) : (s.setUnit k e).turns = s.turns := rfl
@[simp] theorem setUnit_sel (s : State) (k : Nat) (e : Inst) : (s.setUnit k e).sel = s.sel := rfl
@[simp] theorem setUnit_hostRead (s : State) (k : Nat) (e : Inst) : (s.setUnit k e).hostRead = s.hostRead := rfl
@[simp] theorem setUnit_fresh (s : State) (k : Nat) (e : Inst) : (s.setUnit k e).fresh = s.fresh := rfl

@[simp] theorem unit?_eq (s : State) (k : Nat) : s.unit? k = s.insts[k]? := rfl

/-! ## Acceptance and completion of a unit -/

@[simp] theorem toBusy_base (e : Inst) : e.toBusy.base = e.base := rfl
@[simp] theorem toBusy_phase (e : Inst) : e.toBusy.phase = .busy := rfl
@[simp] theorem toBusy_done (e : Inst) : e.toBusy.done = false := rfl
@[simp] theorem toBusy_illegal (e : Inst) : e.toBusy.illegal = e.illegal := rfl
@[simp] theorem toBusy_collide (e : Inst) : e.toBusy.collide = e.collide := rfl
@[simp] theorem toBusy_latch (e : Inst) : e.toBusy.latch = e.latch := rfl
@[simp] theorem toBusy_result (e : Inst) : e.toBusy.result = e.result := rfl

@[simp] theorem toIdle_base (e : Inst) : e.toIdle.base = e.base := rfl
@[simp] theorem toIdle_phase (e : Inst) : e.toIdle.phase = .idle := rfl
@[simp] theorem toIdle_done (e : Inst) : e.toIdle.done = true := rfl
@[simp] theorem toIdle_illegal (e : Inst) : e.toIdle.illegal = e.illegal := rfl
@[simp] theorem toIdle_collide (e : Inst) : e.toIdle.collide = e.collide := rfl
@[simp] theorem toIdle_latch (e : Inst) : e.toIdle.latch = e.latch := rfl
@[simp] theorem toIdle_result (e : Inst) : e.toIdle.result = e.result := rfl

/-! ## STATUS and the error events -/

@[simp] theorem writeStatus_base (e : Inst) (v : Word) : (e.writeStatus v).base = e.base := rfl
@[simp] theorem writeStatus_phase (e : Inst) (v : Word) : (e.writeStatus v).phase = e.phase := rfl
@[simp] theorem writeStatus_latch (e : Inst) (v : Word) : (e.writeStatus v).latch = e.latch := rfl
@[simp] theorem writeStatus_result (e : Inst) (v : Word) : (e.writeStatus v).result = e.result := rfl
@[simp] theorem writeStatus_done (e : Inst) (v : Word) : (e.writeStatus v).done = (e.done && !v.getLsbD 1) := rfl
@[simp] theorem writeStatus_illegal (e : Inst) (v : Word) :
    (e.writeStatus v).illegal = (e.illegal && !v.getLsbD 2) := rfl
@[simp] theorem writeStatus_collide (e : Inst) (v : Word) :
    (e.writeStatus v).collide = (e.collide && !v.getLsbD 3) := rfl

@[simp] theorem raiseEvent_base (e : Inst) (x : ErrorEvent) : (e.raiseEvent x).base = e.base := by cases x <;> rfl
@[simp] theorem raiseEvent_phase (e : Inst) (x : ErrorEvent) : (e.raiseEvent x).phase = e.phase := by cases x <;> rfl
@[simp] theorem raiseEvent_done (e : Inst) (x : ErrorEvent) : (e.raiseEvent x).done = e.done := by cases x <;> rfl
@[simp] theorem raiseEvent_latch (e : Inst) (x : ErrorEvent) : (e.raiseEvent x).latch = e.latch := by cases x <;> rfl
@[simp] theorem raiseEvent_result (e : Inst) (x : ErrorEvent) : (e.raiseEvent x).result = e.result := by
  cases x <;> rfl
@[simp] theorem raiseEvent_illegal_flag (e : Inst) : e.raiseEvent .illegal = { e with illegal := true } := rfl
@[simp] theorem raiseEvent_collide_flag (e : Inst) : e.raiseEvent .collide = { e with collide := true } := rfl

theorem busy_iff (e : Inst) : e.busy = true ↔ e.phase = .busy := by
  cases h : e.phase <;> simp [Inst.busy, h]

theorem not_busy_iff (e : Inst) : e.busy = false ↔ e.phase = .idle := by
  cases h : e.phase <;> simp [Inst.busy, h]

/-! ## The other slots -/

@[simp] theorem writeSlot_base (e : Inst) (v : Word) (x : Slot) : (e.writeSlot v x).base = e.base := by cases x <;> rfl
@[simp] theorem writeSlot_phase (e : Inst) (v : Word) (x : Slot) : (e.writeSlot v x).phase = e.phase := by
  cases x <;> rfl
@[simp] theorem writeSlot_latch (e : Inst) (v : Word) (x : Slot) : (e.writeSlot v x).latch = e.latch := by
  cases x <;> rfl
@[simp] theorem writeSlot_result (e : Inst) (v : Word) (x : Slot) : (e.writeSlot v x).result = e.result := by
  cases x <;> rfl

/-- A write of a slot never sets DONE. -/
theorem writeSlot_done (e : Inst) (v : Word) (x : Slot) (h : e.done = false) : (e.writeSlot v x).done = false := by
  cases x <;> simp [Inst.writeSlot, h]

end Sys2Proof.Machine
end

