-- ==== Sys2Proof/Laws/Operands.lean ====
section
/-! SUPPORT. Regions, preconditions, ownership and the frame of a completion. -/

namespace Sys2Proof.Machine

open Sys2Proof

/-! ## Positions and regions -/

theorem mem_bytesFrom (a n b : Nat) : b ∈ bytesFrom a n ↔ a ≤ b ∧ b < a + n := by
  simp only [bytesFrom, List.mem_map, List.mem_range]
  constructor
  · rintro ⟨i, hi, rfl⟩
    omega
  · rintro ⟨h1, h2⟩
    exact ⟨b - a, by omega, by omega⟩

theorem mem_gridPositions (n : Nat) (p : Nat × Nat) : p ∈ gridPositions n ↔ p.1 < n ∧ p.2 < n := by
  obtain ⟨r, c⟩ := p
  simp [gridPositions]

theorem mem_tilePositions (p : Nat × Nat × Nat) : p ∈ tilePositions ↔ p.1 < 4 ∧ p.2.1 < 8 ∧ p.2.2 < 8 := by
  obtain ⟨t, u, v⟩ := p
  simp [tilePositions, mem_gridPositions]

theorem mem_inputBytes (i : Instr) (L : Latch) (a : Nat) :
    a ∈ inputBytes i L ↔ ∃ x ∈ inputElems i L, x ≤ a ∧ a < x + elemBytes i := by
  simp [inputBytes, mem_bytesFrom]

theorem mem_outputBytes (i : Instr) (L : Latch) (a : Nat) :
    a ∈ outputBytes i L ↔ ∃ x ∈ outputElems i L, x ≤ a ∧ a < x + elemBytes i := by
  simp [outputBytes, mem_bytesFrom]

/-- An access stays inside a region that holds all its bytes. -/
theorem region_holds_iff (r : Region) (a : Nat) : r.holds a = true ↔ r.base ≤ a ∧ a < r.base + r.size := by
  simp [Region.holds]

/-! ## Preconditions -/

theorem boundsOk_iff (memAdmit : List Region) (i : Instr) (L : Latch) :
    boundsOk memAdmit i L = true ↔ ∀ a, a ∈ inputBytes i L ∨ a ∈ outputBytes i L → admits memAdmit a = true := by
  simp only [boundsOk, Bool.and_eq_true, List.all_eq_true]
  constructor
  · rintro ⟨h1, h2⟩ a (h | h)
    · exact h1 a h
    · exact h2 a h
  · intro h
    exact ⟨fun a ha => h a (.inl ha), fun a ha => h a (.inr ha)⟩

/-- What the precondition check answers, in its order (60_exceptions R224). -/
theorem preFault_cases (memAdmit : List Region) (i : Instr) (L : Latch) :
    (alignedOk i L = false ∧ preFault memAdmit i L = some (.mf2 L)) ∨
    (alignedOk i L = true ∧ strideOk i L = false ∧ preFault memAdmit i L = some (.mf3 L)) ∨
    (alignedOk i L = true ∧ strideOk i L = true ∧ boundsOk memAdmit i L = false ∧ preFault memAdmit i L = some (.mf1 L)) ∨
    (alignedOk i L = true ∧ strideOk i L = true ∧ boundsOk memAdmit i L = true ∧ preFault memAdmit i L = none) := by
  unfold preFault
  cases h1 : alignedOk i L <;> cases h2 : strideOk i L <;> cases h3 : boundsOk memAdmit i L <;> simp

theorem preFault_eq_none_iff (memAdmit : List Region) (i : Instr) (L : Latch) :
    preFault memAdmit i L = none ↔ alignedOk i L = true ∧ strideOk i L = true ∧ boundsOk memAdmit i L = true := by
  unfold preFault
  cases h1 : alignedOk i L <;> cases h2 : strideOk i L <;> cases h3 : boundsOk memAdmit i L <;> simp

/-- The preconditions look at the latch's addresses and stride only. -/
theorem preFault_isNone_congr (memAdmit : List Region) (i : Instr) (L M : Latch) (h1 : L.src = M.src) (h2 : L.dst = M.dst)
    (h3 : L.stride = M.stride) : (preFault memAdmit i L).isNone = (preFault memAdmit i M).isNone := by
  have ha : alignedOk i L = alignedOk i M := by simp [alignedOk, h1, h2]
  have hs : strideOk i L = strideOk i M := by simp [strideOk, h3]
  have hi : inputBytes i L = inputBytes i M := by
    cases i <;> simp [inputBytes, inputElems, Latch.sampleAddr, Latch.coefAddr, h1, h3]
  have ho : outputBytes i L = outputBytes i M := by
    cases i <;> simp [outputBytes, outputElems, Latch.coefAddr, Latch.tileAddr, h2, h3]
  have hb : boundsOk memAdmit i L = boundsOk memAdmit i M := by simp [boundsOk, hi, ho]
  simp only [preFault, ha, hs, hb]
  cases alignedOk i M <;> cases strideOk i M <;> cases boundsOk memAdmit i M <;> rfl

/-- A shift has no precondition (20_memory R77). -/
theorem preFault_shift (memAdmit : List Region) (i : Instr) (L : Latch) (s : Nat)
    (h : i = .shl s ∨ i = .shr s ∨ i = .shrr s ∨ i = .sra s ∨ i = .srar s) : preFault memAdmit i L = none := by
  rcases h with rfl | rfl | rfl | rfl | rfl <;>
    simp [preFault, alignedOk, needsEven, strideOk, minStride, boundsOk, inputBytes, outputBytes, inputElems, outputElems]

/-! ## Ownership -/

theorem owns_write_iff (e : Inst) (bytes : List Nat) :
    e.owns .write bytes = true ↔ e.phase = .busy ∧ ∃ a ∈ bytes,
      a ∈ inputBytes e.latch.op e.latch ∨ a ∈ outputBytes e.latch.op e.latch := by
  simp [Inst.owns, busy_iff]

theorem owns_read_iff (e : Inst) (bytes : List Nat) :
    e.owns .read bytes = true ↔ e.phase = .busy ∧ ∃ a ∈ bytes, a ∈ outputBytes e.latch.op e.latch := by
  simp [Inst.owns, busy_iff]

theorem mem_otherUnits (s : State) (k : Nat) (e : Inst) :
    e ∈ s.otherUnits k ↔ ∃ j, j ≠ k ∧ s.insts[j]? = some e := by
  simp only [State.otherUnits, List.mem_eraseIdx_iff_getElem?]

/-- No conflict is found exactly when the ownership of the other running commands is respected (20_memory R88, R95). -/
theorem engineConflict_eq_none_iff (s : State) (k : Nat) (i : Instr) (L : Latch) :
    s.engineConflict k i L = none ↔ s.ownershipOk k i L := by
  simp only [State.engineConflict, List.find?_eq_none, List.any_eq_true, not_exists, not_and]
  constructor
  · intro h j e hj hjk hb
    have hmem : e ∈ s.otherUnits k := (mem_otherUnits s k e).2 ⟨j, hjk, hj⟩
    refine ⟨fun a ha hc => ?_, fun a ha => ⟨fun hc => ?_, fun hc => ?_⟩⟩
    · obtain ⟨x, hx, hxa⟩ := (mem_inputBytes i L a).1 ha
      refine h ⟨.engine k, .read, x, elemBytes i⟩ ?_ e hmem
        ((owns_read_iff _ _).2 ⟨(busy_iff e).1 hb, a, (mem_bytesFrom _ _ _).2 hxa, hc⟩)
      simp only [engineAccesses, List.mem_append, List.mem_map]
      exact .inl ⟨x, hx, rfl⟩
    · obtain ⟨x, hx, hxa⟩ := (mem_outputBytes i L a).1 ha
      refine h ⟨.engine k, .write, x, elemBytes i⟩ ?_ e hmem
        ((owns_write_iff _ _).2 ⟨(busy_iff e).1 hb, a, (mem_bytesFrom _ _ _).2 hxa, .inl hc⟩)
      simp only [engineAccesses, List.mem_append, List.mem_map]
      exact .inr ⟨x, hx, rfl⟩
    · obtain ⟨x, hx, hxa⟩ := (mem_outputBytes i L a).1 ha
      refine h ⟨.engine k, .write, x, elemBytes i⟩ ?_ e hmem
        ((owns_write_iff _ _).2 ⟨(busy_iff e).1 hb, a, (mem_bytesFrom _ _ _).2 hxa, .inr hc⟩)
      simp only [engineAccesses, List.mem_append, List.mem_map]
      exact .inr ⟨x, hx, rfl⟩
  · intro h acc hacc e he how
    obtain ⟨j, hjk, hj⟩ := (mem_otherUnits s k e).1 he
    simp only [engineAccesses, List.mem_append, List.mem_map] at hacc
    rcases hacc with ⟨x, hx, rfl⟩ | ⟨x, hx, rfl⟩
    · obtain ⟨hb, a, ha, hc⟩ := (owns_read_iff _ _).1 how
      exact (h j e hj hjk ((busy_iff e).2 hb)).1 a
        ((mem_inputBytes i L a).2 ⟨x, hx, (mem_bytesFrom _ _ _).1 ha⟩) hc
    · obtain ⟨hb, a, ha, hc⟩ := (owns_write_iff _ _).1 how
      have := (h j e hj hjk ((busy_iff e).2 hb)).2 a ((mem_outputBytes i L a).2 ⟨x, hx, (mem_bytesFrom _ _ _).1 ha⟩)
      rcases hc with hc | hc
      · exact this.1 hc
      · exact this.2 hc

/-- The access a conflict records is one of the completing engine. -/
theorem engineConflict_agent (s : State) (k : Nat) (i : Instr) (L : Latch) (a : Access)
    (h : s.engineConflict k i L = some a) : a.agent = .engine k := by
  have := List.mem_of_find?_eq_some h
  simp only [engineAccesses, List.mem_append, List.mem_map] at this
  rcases this with ⟨x, _, rfl⟩ | ⟨x, _, rfl⟩ <;> rfl

/-- A shift makes no access, so no ownership stands in its way. -/
theorem engineConflict_shift (s : State) (k : Nat) (i : Instr) (L : Latch) (sh : Nat)
    (h : i = .shl sh ∨ i = .shr sh ∨ i = .shrr sh ∨ i = .sra sh ∨ i = .srar sh) : s.engineConflict k i L = none := by
  rcases h with rfl | rfl | rfl | rfl | rfl <;> simp [State.engineConflict, engineAccesses, inputElems, outputElems]

/-! ## Completion -/

/-- Everything a completion can do. -/
theorem completion_cases (i : Instr) (s : State) (effect : Inst → State) :
    (s.insts[s.sel]? = none ∧ completion i s effect = .refused (.noUnit s.sel)) ∨
    ∃ e, s.insts[s.sel]? = some e ∧
      ((∃ f, preFault s.memAdmit i e.latch = some f ∧ completion i s effect = .fault f) ∨
       (∃ a, preFault s.memAdmit i e.latch = none ∧ s.engineConflict s.sel i e.latch = some a ∧
          completion i s effect = .fault (.mf4 a)) ∨
       (preFault s.memAdmit i e.latch = none ∧ s.engineConflict s.sel i e.latch = none ∧
          completion i s effect = .next (effect e))) := by
  unfold completion
  cases h1 : s.insts[s.sel]? with
  | none => simp [h1]
  | some e =>
    refine .inr ⟨e, rfl, ?_⟩
    cases h2 : preFault s.memAdmit i e.latch with
    | some f => exact .inl ⟨f, rfl, by simp [h1, h2]⟩
    | none =>
      cases h3 : s.engineConflict s.sel i e.latch with
      | some a => exact .inr (.inl ⟨a, rfl, rfl, by simp [h1, h2, h3]⟩)
      | none => exact .inr (.inr ⟨rfl, rfl, by simp [h1, h2, h3]⟩)

/-- A completion that answers a next state ran its effect on the selected unit, with preconditions and ownership met. -/
theorem completion_next (i : Instr) (s t : State) (effect : Inst → State) (h : completion i s effect = .next t) :
    ∃ e, s.insts[s.sel]? = some e ∧ preFault s.memAdmit i e.latch = none ∧ s.ownershipOk s.sel i e.latch ∧
      t = effect e := by
  rcases completion_cases i s effect with ⟨_, hc⟩ | ⟨e, he, ⟨f, _, hc⟩ | ⟨a, _, _, hc⟩ | ⟨hp, hn, hc⟩⟩
  · simp [hc] at h
  · simp [hc] at h
  · simp [hc] at h
  · refine ⟨e, he, hp, (engineConflict_eq_none_iff _ _ _ _).1 hn, ?_⟩
    rw [hc] at h
    injection h with h
    exact h.symm

/-- When a completion runs. -/
theorem completion_of_ok (i : Instr) (s : State) (effect : Inst → State) (e : Inst) (he : s.insts[s.sel]? = some e)
    (hp : preFault s.memAdmit i e.latch = none) (ho : s.ownershipOk s.sel i e.latch) :
    completion i s effect = .next (effect e) := by
  have hn := (engineConflict_eq_none_iff s s.sel i e.latch).2 ho
  simp [completion, he, hp, hn]

/-- A shift always completes on a unit that exists (40_shift_unit R134). -/
theorem completion_shift (i : Instr) (s : State) (effect : Inst → State) (e : Inst) (sh : Nat)
    (he : s.insts[s.sel]? = some e)
    (h : i = .shl sh ∨ i = .shr sh ∨ i = .shrr sh ∨ i = .sra sh ∨ i = .srar sh) :
    completion i s effect = .next (effect e) := by
  simp [completion, he, preFault_shift _ _ _ _ h, engineConflict_shift _ _ _ _ _ h]

end Sys2Proof.Machine
end

