-- ==== Sys2Proof/Laws/Commands.lean ====
section
/-! SUPPORT. What the nine meanings do: each command's completion as one equation, and what any completion leaves
unchanged. -/

namespace Sys2Proof.Machine

open Sys2Proof

/-! ## Each effect as one record update -/

theorem shiftEffect_eq (s : State) (e : Inst) (y : Half) :
    shiftEffect s e y =
      { s with insts := s.insts.set s.sel { e with phase := .idle, done := true, result := y } } := rfl

theorem averageEffect_eq (n sh : Nat) (s : State) (e : Inst) :
    averageEffect n sh s e =
      { s with insts := s.insts.set s.sel { e with
          phase := .idle
          done := true
          acc := accumulate s.mem e.latch n
          result := wrap16 (shrRound (zext (accumulate s.mem e.latch n)) sh) } } := rfl

/-- A transform's end: new memory, one free value drawn, and on the unit a free W. -/
def State.transformed (s : State) (e : Inst) (m : Memory) : State :=
  { s with
    mem := m
    fresh := s.fresh + 1
    insts := s.insts.set s.sel { e with phase := .idle, done := true, work := Config.freeWork s.fresh } }

theorem had8Effect_eq (s : State) (e : Inst) :
    had8Effect s e = s.transformed e (s.mem.storeHalves (had8Stores e.latch (load8 s.mem e.latch e.work))) := by
  simp only [had8Effect, State.finish, State.setUnit, Inst.toIdle, State.transformed]

theorem had16Effect_eq (s : State) (e : Inst) :
    had16Effect s e = s.transformed e (s.mem.storeHalves (had16Stores e.latch (phase1 (load16 s.mem e.latch)))) := by
  simp only [had16Effect, State.finish, State.setUnit, Inst.toIdle, State.transformed]

/-- The stores of HAD8 are at its output elements. -/
theorem had8Stores_addr (L : Latch) (w : Work) : (had8Stores L w).map Prod.fst = outputElems .had8 L := by
  simp [had8Stores, outputElems]

/-- The stores of HAD16 are at its output elements. -/
theorem had16Stores_addr (L : Latch) (w : Work) : (had16Stores L w).map Prod.fst = outputElems .had16 L := by
  simp [had16Stores, outputElems]

/-! ## Every completion -/

/-- What the completion of command `i` does, whatever it computes: `e` is the selected unit before and `f` after. -/
structure CompletedAs (i : Instr) (s t : State) (e f : Inst) : Prop where
  /-- Of the unit, only RESULT, W and ACC may change besides BUSY and DONE (10_state R47). -/
  unit : f = { e with phase := .idle, done := true, result := f.result, work := f.work, acc := f.acc }
  /-- Of the state, only memory, the count of free values and the selected unit. -/
  state : t = { s with mem := t.mem, fresh := t.fresh, insts := s.insts.set s.sel f }
  /-- A transform leaves RESULT and ACC (42_hadamard8x8 R182, 43_hadamard16x16 R200). -/
  transform : (i = .had8 ∨ i = .had16) → f.result = e.result ∧ f.acc = e.acc
  /-- The other commands write no memory. -/
  scalar : ¬ (i = .had8 ∨ i = .had16) → t.mem = s.mem ∧ t.fresh = s.fresh
  wf : s.mem.wf = true → t.mem.wf = true
  /-- No byte outside the output region changes. -/
  frame : ∀ a, a ∉ outputBytes i e.latch → t.mem.read a = s.mem.read a
  cells : ∀ c ∈ t.mem, c ∈ s.mem ∨ c.1 ∈ outputBytes i e.latch

theorem completedAs_shift (i : Instr) (s : State) (e : Inst) (y : Half) (hi : ¬ (i = .had8 ∨ i = .had16)) :
    CompletedAs i s (shiftEffect s e y) e { e with phase := .idle, done := true, result := y } where
  unit := rfl
  state := rfl
  transform h := absurd h hi
  scalar _ := ⟨rfl, rfl⟩
  wf h := h
  frame _ _ := rfl
  cells _ hc := .inl hc

theorem completedAs_average (i : Instr) (n sh : Nat) (s : State) (e : Inst) (hi : ¬ (i = .had8 ∨ i = .had16)) :
    ∃ f, CompletedAs i s (averageEffect n sh s e) e f := by
  rw [averageEffect_eq]
  exact ⟨_, rfl, rfl, fun h => absurd h hi, fun _ => ⟨rfl, rfl⟩, fun h => h, fun _ _ => rfl, fun _ hc => .inl hc⟩

theorem completedAs_transform (i : Instr) (s : State) (e : Inst) (cs : List (Nat × Half)) (hi : i = .had8 ∨ i = .had16)
    (hcs : cs.map Prod.fst = outputElems i e.latch) :
    CompletedAs i s (s.transformed e (s.mem.storeHalves cs)) e
      { e with phase := .idle, done := true, work := Config.freeWork s.fresh } := by
  have hn : elemBytes i = 2 := by rcases hi with rfl | rfl <;> rfl
  have hin : ∀ c ∈ cs, ∀ a, c.1 ≤ a → a < c.1 + 2 → a ∈ outputBytes i e.latch := by
    intro c hc a h1 h2
    refine (mem_outputBytes i e.latch a).2 ⟨c.1, ?_, h1, by omega⟩
    rw [← hcs]
    exact List.mem_map_of_mem hc
  refine ⟨rfl, rfl, fun _ => ⟨rfl, rfl⟩, fun h => absurd hi h, storeHalves_wf _ _, fun a ha => ?_, fun x hx => ?_⟩
  · refine read_storeHalves_other _ _ _ (fun c hc => ?_)
    by_contra hcon
    exact ha (hin c hc a (by omega) (by omega))
  · rcases mem_storeHalves _ _ _ hx with ⟨c, hc, h1, h2⟩ | hx
    · exact .inr (hin c hc _ h1 h2)
    · exact .inl hx

/-- Everything an `exec` that answers a next state does, for any command. -/
theorem exec_next (i : Instr) (s t : State) (h : exec i s = .next t) :
    ∃ e f, s.insts[s.sel]? = some e ∧ preFault s.memAdmit i e.latch = none ∧ s.ownershipOk s.sel i e.latch ∧
      CompletedAs i s t e f := by
  have key : ∀ effect : Inst → State, completion i s effect = .next t →
      (∀ e, ∃ f, CompletedAs i s (effect e) e f) →
      ∃ e f, s.insts[s.sel]? = some e ∧ preFault s.memAdmit i e.latch = none ∧ s.ownershipOk s.sel i e.latch ∧
        CompletedAs i s t e f := by
    intro effect hc hall
    obtain ⟨e, he, hp, ho, rfl⟩ := completion_next i s t effect hc
    obtain ⟨f, hf⟩ := hall e
    exact ⟨e, f, he, hp, ho, hf⟩
  cases i with
  | avg4 => exact key _ h (fun e => completedAs_average _ _ _ s e (by simp))
  | avg8 => exact key _ h (fun e => completedAs_average _ _ _ s e (by simp))
  | had8 =>
    refine key _ h (fun e => ?_)
    rw [had8Effect_eq]
    exact ⟨_, completedAs_transform _ s e _ (.inl rfl) (had8Stores_addr _ _)⟩
  | had16 =>
    refine key _ h (fun e => ?_)
    rw [had16Effect_eq]
    exact ⟨_, completedAs_transform _ s e _ (.inr rfl) (had16Stores_addr _ _)⟩
  | shl sh => exact key _ h (fun e => ⟨_, completedAs_shift _ s e _ (by simp)⟩)
  | shr sh => exact key _ h (fun e => ⟨_, completedAs_shift _ s e _ (by simp)⟩)
  | shrr sh => exact key _ h (fun e => ⟨_, completedAs_shift _ s e _ (by simp)⟩)
  | sra sh => exact key _ h (fun e => ⟨_, completedAs_shift _ s e _ (by simp)⟩)
  | srar sh => exact key _ h (fun e => ⟨_, completedAs_shift _ s e _ (by simp)⟩)

/-! ## When a command completes -/

/-- `exec` of a command is its completion frame around some effect. -/
theorem exec_eq_completion (i : Instr) (s : State) : ∃ effect, exec i s = completion i s effect := by
  cases i <;> exact ⟨_, rfl⟩

theorem exec_of_ok (i : Instr) (s : State) (e : Inst) (he : s.insts[s.sel]? = some e)
    (hp : preFault s.memAdmit i e.latch = none) (ho : s.ownershipOk s.sel i e.latch) : ∃ t, exec i s = .next t := by
  obtain ⟨effect, h⟩ := exec_eq_completion i s
  exact ⟨_, h.trans (completion_of_ok i s effect e he hp ho)⟩

theorem exec_of_preFault (i : Instr) (s : State) (e : Inst) (f : Fault) (he : s.insts[s.sel]? = some e)
    (hp : preFault s.memAdmit i e.latch = some f) : exec i s = .fault f := by
  obtain ⟨effect, h⟩ := exec_eq_completion i s
  rw [h]
  simp [completion, he, hp]

theorem exec_of_conflict (i : Instr) (s : State) (e : Inst) (a : Access) (he : s.insts[s.sel]? = some e)
    (hp : preFault s.memAdmit i e.latch = none) (hc : s.engineConflict s.sel i e.latch = some a) :
    exec i s = .fault (.mf4 a) := by
  obtain ⟨effect, h⟩ := exec_eq_completion i s
  rw [h]
  simp [completion, he, hp, hc]

end Sys2Proof.Machine
end

