-- ==== Sys2Proof/Laws/Bus.lean ====
section
/-! SUPPORT. Where a host access goes, and everything a host step and a reset can do. -/

namespace Sys2Proof.Machine

open Sys2Proof

/-! ## The window an access touches -/

theorem windowAt_some (s : State) (bytes : List Nat) (e : Inst) (k : Nat) (h : s.windowAt bytes = some (e, k)) :
    s.insts[k]? = some e ∧ ∃ a ∈ bytes, e.window.holds a = true := by
  refine ⟨?_, by simpa using List.find?_some h⟩
  have hm := List.mem_of_find?_eq_some h
  exact (List.mem_zipIdx_iff_getElem? (x := (e, k)) (l := s.insts)).1 hm

theorem windowAt_none_iff (s : State) (bytes : List Nat) :
    s.windowAt bytes = none ↔ ∀ e ∈ s.insts, ∀ a ∈ bytes, e.window.holds a = false := by
  simp only [State.windowAt, List.find?_eq_none, List.any_eq_true, not_exists, not_and, Bool.not_eq_true]
  constructor
  · intro h e he a ha
    obtain ⟨k, hk⟩ := List.getElem?_of_mem he
    exact h (e, k) (List.mem_zipIdx_iff_getElem?.2 hk) a ha
  · intro h p hp a ha
    exact h p.1 (List.mem_of_getElem? (List.mem_zipIdx_iff_getElem?.1 hp)) a ha

theorem window_holds_iff (e : Inst) (a : Nat) : e.window.holds a = true ↔ e.base ≤ a ∧ a < e.base + 32 := by
  rw [region_holds_iff]
  rfl

/-! ## What the invariant says of a unit -/

theorem ok_base (memAdmit : List Region) (e : Inst) (h : e.ok memAdmit = true) :
    e.base % 32 = 0 ∧ e.base + 32 ≤ 2 ^ 32 := by
  simp only [Inst.ok, Bool.and_eq_true, decide_eq_true_eq] at h
  exact ⟨h.1.1.1, h.1.1.2⟩

theorem ok_window_not_admitted (memAdmit : List Region) (e : Inst) (h : e.ok memAdmit = true) (a : Nat)
    (ha : e.window.holds a = true) : admits memAdmit a = false := by
  simp only [Inst.ok, Bool.and_eq_true, List.all_eq_true] at h
  have := h.1.2 a ((mem_bytesFrom _ _ _).2 (by simpa [Config.windowBytes] using (window_holds_iff e a).1 ha))
  simpa using this

/-- An idle unit is ok wherever its window is. -/
theorem ok_of_idle (memAdmit : List Region) (e f : Inst) (h : e.ok memAdmit = true) (hb : f.base = e.base)
    (hf : f.phase = .idle) : f.ok memAdmit = true := by
  simp only [Inst.ok, Bool.and_eq_true] at h ⊢
  rw [hb]
  exact ⟨h.1, by simp [(not_busy_iff f).2 hf]⟩

/-- A unit with its window in place is ok when DONE is 0 and its latched command's preconditions hold. -/
theorem ok_of_busy (memAdmit : List Region) (e f : Inst) (h : e.ok memAdmit = true) (hb : f.base = e.base)
    (h1 : f.latch.op.wf = true) (h2 : f.done = false) (h3 : preFault memAdmit f.latch.op f.latch = none) :
    f.ok memAdmit = true := by
  simp only [Inst.ok, Bool.and_eq_true] at h ⊢
  rw [hb]
  exact ⟨h.1, by simp [h1, h2, h3]⟩

theorem ok_busy (memAdmit : List Region) (e : Inst) (h : e.ok memAdmit = true) (hb : e.phase = .busy) :
    e.latch.op.wf = true ∧ e.done = false ∧ preFault memAdmit e.latch.op e.latch = none := by
  simp only [Inst.ok, Bool.and_eq_true, Bool.or_eq_true, Bool.not_eq_true', (busy_iff e).2 hb] at h
  simpa [and_assoc] using h.2

/-- Two units of a state that meets the invariant share no window byte. -/
theorem window_unique (s : State) (hi : s.Inv) (j k : Nat) (d e : Inst) (hj : s.insts[j]? = some d)
    (hk : s.insts[k]? = some e) (a : Nat) (hd : d.window.holds a = true) (he : e.window.holds a = true) : j = k := by
  obtain ⟨_, _, _, hnd, hok⟩ := hi
  have hbd := ok_base _ _ (hok d (List.mem_of_getElem? hj))
  have hbe := ok_base _ _ (hok e (List.mem_of_getElem? hk))
  have h1 := (window_holds_iff d a).1 hd
  have h2 := (window_holds_iff e a).1 he
  have hbase : d.base = e.base := by omega
  have hj' : (s.insts.map Inst.base)[j]? = some d.base := by simp [hj]
  have hk' : (s.insts.map Inst.base)[k]? = some d.base := by simp [hk, hbase]
  obtain ⟨hlj, hj''⟩ := List.getElem?_eq_some_iff.1 hj'
  obtain ⟨hlk, hk''⟩ := List.getElem?_eq_some_iff.1 hk'
  exact (hnd.getElem_inj_iff).1 (hj''.trans hk''.symm)

/-- An access with a byte in a unit's window, and no byte in another's, is an access to that unit. -/
theorem windowAt_of_inv (s : State) (hi : s.Inv) (k : Nat) (e : Inst) (hk : s.insts[k]? = some e) (bytes : List Nat)
    (hne : ∃ a ∈ bytes, e.window.holds a = true) (hall : ∀ a ∈ bytes, e.window.holds a = true) :
    s.windowAt bytes = some (e, k) := by
  obtain ⟨a, ha, hw⟩ := hne
  cases h : s.windowAt bytes with
  | none =>
    have := (windowAt_none_iff s bytes).1 h e (List.mem_of_getElem? hk) a ha
    simp [hw] at this
  | some p =>
    obtain ⟨d, j⟩ := p
    obtain ⟨hj, b, hb, hdb⟩ := windowAt_some s bytes d j h
    have hjk := window_unique s hi j k d e hj hk b hdb (hall b hb)
    subst hjk
    rw [hj] at hk
    injection hk with hk
    rw [hk]

/-- An access in ordinary memory touches no window. -/
theorem windowAt_of_admitted (s : State) (hi : s.Inv) (bytes : List Nat)
    (h : ∀ a ∈ bytes, admits s.memAdmit a = true) : s.windowAt bytes = none := by
  refine (windowAt_none_iff s bytes).2 (fun e he a ha => ?_)
  by_contra hcon
  have := ok_window_not_admitted _ _ (hi.2.2.2.2 e he) a (by simpa using hcon)
  simp [h a ha] at this

/-! ## Aligned 32-bit accesses to a window -/

theorem slotAt_offset (off : Nat) (h : off < 32) (h4 : off % 4 = 0) : (slotAt off).offset = off := by
  have : off = 0 ∨ off = 4 ∨ off = 8 ∨ off = 12 ∨ off = 16 ∨ off = 20 ∨ off = 24 ∨ off = 28 := by omega
  rcases this with rfl | rfl | rfl | rfl | rfl | rfl | rfl | rfl <;> rfl

theorem slotAt_of_offset (x : Slot) : slotAt x.offset = x := by cases x <;> rfl

/-- An aligned 32-bit access that touches the window of an aligned unit lies at one of its slots. -/
theorem window_access (memAdmit : List Region) (e : Inst) (hok : e.ok memAdmit = true) (addr : Nat) (h4 : addr % 4 = 0)
    (h : ∃ a ∈ bytesFrom addr 4, e.window.holds a = true) :
    addr = e.base + (slotAt (addr - e.base)).offset := by
  obtain ⟨a, ha, hw⟩ := h
  have h1 := (mem_bytesFrom _ _ _).1 ha
  have h2 := (window_holds_iff e a).1 hw
  have h3 := ok_base _ _ hok
  rw [slotAt_offset (addr - e.base) (by omega) (by omega)]
  omega

theorem windowAt_slot (s : State) (hi : s.Inv) (k : Nat) (e : Inst) (hk : s.insts[k]? = some e) (x : Slot) :
    s.windowAt (bytesFrom (e.base + x.offset) 4) = some (e, k) := by
  have hx : x.offset + 4 ≤ 32 := by cases x <;> decide
  refine windowAt_of_inv s hi k e hk _ ⟨e.base + x.offset, ?_, ?_⟩ ?_
  · exact (mem_bytesFrom _ _ _).2 (by omega)
  · exact (window_holds_iff _ _).2 (by omega)
  · intro a ha
    have := (mem_bytesFrom _ _ _).1 ha
    exact (window_holds_iff _ _).2 (by omega)

theorem slot_aligned (s : State) (hi : s.Inv) (k : Nat) (e : Inst) (hk : s.insts[k]? = some e) (x : Slot) :
    (e.base + x.offset) % 4 = 0 := by
  have h3 := ok_base _ _ (hi.2.2.2.2 e (List.mem_of_getElem? hk))
  cases x <;> simp only [Slot.offset] <;> omega

/-- A host write of a slot (30_encoding R109, WR). -/
theorem hostStore_slot (s : State) (hi : s.Inv) (k : Nat) (e : Inst) (hk : s.insts[k]? = some e) (x : Slot) (v : Nat) :
    hostStore s (e.base + x.offset) 4 v = writeWindow s k e x (BitVec.ofNat 32 v) := by
  simp only [hostStore, Access.byteList, windowAt_slot s hi k e hk x, Access.aligned32, slot_aligned s hi k e hk x,
    beq_self_eq_true, Bool.and_self, if_true, Nat.add_sub_cancel_left, slotAt_of_offset]

/-- A host read of a slot (30_encoding R109, RD). -/
theorem hostLoad_slot (s : State) (hi : s.Inv) (k : Nat) (e : Inst) (hk : s.insts[k]? = some e) (x : Slot) :
    hostLoad s (e.base + x.offset) 4 = .next { s with hostRead := (e.readSlot x).toNat } := by
  simp only [hostLoad, Access.byteList, windowAt_slot s hi k e hk x, Access.aligned32, slot_aligned s hi k e hk x,
    beq_self_eq_true, Bool.and_self, if_true, Nat.add_sub_cancel_left, slotAt_of_offset]

/-! ## Memory accesses of the host -/

theorem owned_iff (s : State) (a : Access) : s.owned a = true ↔ ∃ e ∈ s.insts, e.owns a.kind a.byteList = true := by
  simp [State.owned]

/-- A host write is owned exactly when one of its bytes is in a running command's input or output region. -/
theorem owned_write_iff (s : State) (addr n : Nat) : s.owned ⟨.host, .write, addr, n⟩ = true ↔
    ∃ e ∈ s.insts, e.phase = .busy ∧ ∃ a, addr ≤ a ∧ a < addr + n ∧
      (a ∈ inputBytes e.latch.op e.latch ∨ a ∈ outputBytes e.latch.op e.latch) := by
  simp only [owned_iff, owns_write_iff, Access.byteList, mem_bytesFrom, and_assoc]

/-- A host read is owned exactly when one of its bytes is in a running command's output region. -/
theorem owned_read_iff (s : State) (addr n : Nat) : s.owned ⟨.host, .read, addr, n⟩ = true ↔
    ∃ e ∈ s.insts, e.phase = .busy ∧ ∃ a, addr ≤ a ∧ a < addr + n ∧ a ∈ outputBytes e.latch.op e.latch := by
  simp only [owned_iff, owns_read_iff, Access.byteList, mem_bytesFrom, and_assoc]

/-- Everything an access to memory can do: MF4, a refusal, or its effect, in this order. -/
theorem memoryAccess_cases (s : State) (a : Access) (onOk : State) :
    (s.owned a = true ∧ s.memoryAccess a onOk = .fault (.mf4 a)) ∨
    (s.owned a = false ∧ (∃ b ∈ a.byteList, admits s.memAdmit b = false) ∧
      s.memoryAccess a onOk = .refused (.hostUnbacked a)) ∨
    ((∀ b ∈ a.byteList, admits s.memAdmit b = true) ∧ s.owned a = false ∧ s.memoryAccess a onOk = .next onOk) := by
  unfold State.memoryAccess
  cases h2 : s.owned a with
  | true => exact .inl ⟨rfl, rfl⟩
  | false =>
    by_cases h1 : a.byteList.all (admits s.memAdmit) = true
    · exact .inr (.inr ⟨by simpa using h1, rfl, by simp [h1]⟩)
    · exact .inr (.inl ⟨rfl, by simpa using h1, by simp [h1]⟩)

/-- No byte of the range lies in a window. -/
theorem windowAt_none_of_range (s : State) (addr n : Nat)
    (h : ∀ e ∈ s.insts, ∀ a, addr ≤ a → a < addr + n → ¬ (e.base ≤ a ∧ a < e.base + 32)) :
    s.windowAt (bytesFrom addr n) = none := by
  rw [windowAt_none_iff]
  intro e he a ha
  obtain ⟨h1, h2⟩ := (mem_bytesFrom _ _ _).1 ha
  rw [← Bool.not_eq_true, region_holds_iff]
  exact h e he a h1 h2

/-- An access that touches no window is one to memory. -/
theorem hostStore_memory (s : State) (addr n v : Nat) (h : s.windowAt (bytesFrom addr n) = none) :
    hostStore s addr n v =
      s.memoryAccess ⟨.host, .write, addr, n⟩ { s with mem := s.mem.writeBytes addr n v } := by
  simp only [hostStore, Access.byteList, h]

theorem hostLoad_memory (s : State) (addr n : Nat) (h : s.windowAt (bytesFrom addr n) = none) :
    hostLoad s addr n = s.memoryAccess ⟨.host, .read, addr, n⟩ { s with hostRead := s.mem.readBytes addr n } := by
  simp only [hostLoad, Access.byteList, h]

/-! ## Everything a host step can do -/

/-- How a CMD write or another window write leaves the unit it goes to. -/
inductive WindowWrite (s : State) (e : Inst) (slot : Slot) (v : Word) : Inst → Prop where
  /-- A CMD write while busy (10_state R45). -/
  | collide : slot = .cmd → e.phase = .busy → WindowWrite s e slot v { e with collide := true }
  /-- A CMD write of an illegal word while idle. -/
  | illegal (x : Illegal) : slot = .cmd → e.phase = .idle → decode v = .error x →
      WindowWrite s e slot v { e with illegal := true }
  /-- Acceptance. -/
  | accepted (i : Instr) : slot = .cmd → e.phase = .idle → decode v = .ok i →
      preFault s.memAdmit i (e.latchFor i) = none →
      WindowWrite s e slot v { e with latch := e.latchFor i, done := false, phase := .busy }
  /-- A write of any other slot. -/
  | slot : slot ≠ .cmd → WindowWrite s e slot v (e.writeSlot v slot)

theorem writeWindow_next (s t : State) (k : Nat) (e : Inst) (slot : Slot) (v : Word)
    (h : writeWindow s k e slot v = .next t) : ∃ f, WindowWrite s e slot v f ∧ t = s.setUnit k f := by
  cases slot with
  | cmd =>
    simp only [writeWindow, writeCmd] at h
    cases hb : e.busy with
    | true =>
      simp only [hb, if_true] at h
      injection h with h
      exact ⟨_, .collide rfl ((busy_iff e).1 hb), h.symm⟩
    | false =>
      simp only [hb, Bool.false_eq_true, if_false] at h
      have hidle := (not_busy_iff e).1 hb
      cases hd : decode v with
      | error x =>
        simp only [hd] at h
        injection h with h
        exact ⟨_, .illegal x rfl hidle hd, h.symm⟩
      | ok i =>
        simp only [hd, accept] at h
        cases hp : preFault s.memAdmit i (e.latchFor i) with
        | some f => simp [hp] at h
        | none =>
          simp only [hp] at h
          injection h with h
          exact ⟨_, .accepted i rfl hidle hd hp, h.symm⟩
  | status => injection h with h; exact ⟨_, .slot (by simp), h.symm⟩
  | src => injection h with h; exact ⟨_, .slot (by simp), h.symm⟩
  | dst => injection h with h; exact ⟨_, .slot (by simp), h.symm⟩
  | stride => injection h with h; exact ⟨_, .slot (by simp), h.symm⟩
  | operand => injection h with h; exact ⟨_, .slot (by simp), h.symm⟩
  | result => injection h with h; exact ⟨_, .slot (by simp), h.symm⟩
  | reserved => injection h with h; exact ⟨_, .slot (by simp), h.symm⟩

/-- A host write that goes on wrote memory, or one slot of one unit. -/
theorem hostStore_next (s t : State) (addr n v : Nat) (h : hostStore s addr n v = .next t) :
    ((∀ b ∈ bytesFrom addr n, admits s.memAdmit b = true) ∧ s.owned ⟨.host, .write, addr, n⟩ = false ∧
      t = { s with mem := s.mem.writeBytes addr n v }) ∨
    (∃ e k f, s.insts[k]? = some e ∧ (∃ a ∈ bytesFrom addr n, e.window.holds a = true) ∧ n = 4 ∧ addr % 4 = 0 ∧
      WindowWrite s e (slotAt (addr - e.base)) (BitVec.ofNat 32 v) f ∧ t = s.setUnit k f) := by
  simp only [hostStore] at h
  split at h
  · rename_i p hp
    obtain ⟨e, k⟩ := p
    split at h
    · rename_i ha
      obtain ⟨f, hf, rfl⟩ := writeWindow_next _ _ _ _ _ _ h
      obtain ⟨hk, hw⟩ := windowAt_some _ _ _ _ hp
      simp only [Access.aligned32, Bool.and_eq_true, beq_iff_eq] at ha
      exact .inr ⟨e, k, f, hk, hw, ha.1, ha.2, hf, rfl⟩
    · simp at h
  · rcases memoryAccess_cases s ⟨.host, .write, addr, n⟩ { s with mem := s.mem.writeBytes addr n v } with
      ⟨_, hc⟩ | ⟨_, _, hc⟩ | ⟨h1, h2, hc⟩
    · simp [hc] at h
    · simp [hc] at h
    · rw [hc] at h
      injection h with h
      exact .inl ⟨h1, h2, h.symm⟩

/-- A host read that goes on changes nothing but the value returned. -/
theorem hostLoad_next (s t : State) (addr n : Nat) (h : hostLoad s addr n = .next t) :
    ∃ v, t = { s with hostRead := v } := by
  simp only [hostLoad] at h
  split at h
  · split at h
    · injection h with h
      exact ⟨_, h.symm⟩
    · simp at h
  · rcases memoryAccess_cases s ⟨.host, .read, addr, n⟩ { s with hostRead := s.mem.readBytes addr n } with
      ⟨_, hc⟩ | ⟨_, _, hc⟩ | ⟨_, _, hc⟩
    · simp [hc] at h
    · simp [hc] at h
    · rw [hc] at h
      injection h with h
      exact ⟨_, h.symm⟩

/-- WAIT that goes on changes nothing but the value returned and the host's place. -/
theorem hostWait_next (s t : State) (base : Nat) (rest : List HostStep) (h : hostWait s base rest = .next t) :
    ∃ v hs, t = { s with hostRead := v, host := hs } := by
  simp only [hostWait] at h
  split at h
  · rename_i u hu
    obtain ⟨v, rfl⟩ := hostLoad_next _ _ _ _ hu
    split at h
    · injection h with h
      exact ⟨_, _, h.symm⟩
    · injection h with h
      exact ⟨_, _, h.symm⟩
  · simp at h
  · simp at h

/-- Everything a host step that goes on can do: change only the value returned and the host's place; write memory; or
write one slot of one unit. -/
theorem hostTurn_next (s t : State) (h : hostTurn s = .next t) :
    (∃ v hs, t = { s with hostRead := v, host := hs }) ∨
    (∃ addr n v rest, s.host = .write addr n v :: rest ∧
      (((∀ b ∈ bytesFrom addr n, admits s.memAdmit b = true) ∧ s.owned ⟨.host, .write, addr, n⟩ = false ∧
          t = { s with host := rest, mem := s.mem.writeBytes addr n v }) ∨
        (∃ e k f, s.insts[k]? = some e ∧ (∃ a ∈ bytesFrom addr n, e.window.holds a = true) ∧ n = 4 ∧ addr % 4 = 0 ∧
          WindowWrite s e (slotAt (addr - e.base)) (BitVec.ofNat 32 v) f ∧
          t = { s with host := rest, insts := s.insts.set k f }))) := by
  simp only [hostTurn] at h
  split at h
  · injection h with h
    exact .inl ⟨s.hostRead, s.host, by rw [← h]⟩
  · rename_i addr n v rest hs
    refine .inr ⟨addr, n, v, rest, hs, ?_⟩
    rcases hostStore_next _ _ _ _ _ h with ⟨h1, h2, rfl⟩ | ⟨e, k, f, hk, hw, hn, ha, hf, rfl⟩
    · exact .inl ⟨h1, h2, rfl⟩
    · refine .inr ⟨e, k, f, hk, hw, hn, ha, ?_, rfl⟩
      cases hf with
      | collide h1 h2 => exact .collide h1 h2
      | illegal x h1 h2 h3 => exact .illegal x h1 h2 h3
      | accepted i h1 h2 h3 h4 => exact .accepted i h1 h2 h3 h4
      | slot h1 => exact .slot h1
  · rename_i addr n rest hs
    obtain ⟨v, rfl⟩ := hostLoad_next _ _ _ _ h
    exact .inl ⟨v, rest, rfl⟩
  · rename_i base rest hs
    obtain ⟨v, hs', rfl⟩ := hostWait_next _ _ _ _ h
    exact .inl ⟨v, hs', rfl⟩

/-! ## Reset -/

/-- Everything a reset of unit k does. -/
theorem resetUnit_cases (s : State) (k : Nat) :
    (s.insts[k]? = none ∧ resetUnit s k = s) ∨
    ∃ e, s.insts[k]? = some e ∧
      ((e.phase = .idle ∧ resetUnit s k = { s with insts := s.insts.set k (Inst.reset e.base) }) ∨
       (e.phase = .busy ∧ resetUnit s k = { s with
          insts := s.insts.set k (Inst.reset e.base)
          mem := s.mem.scramble s.fresh (outputBytes e.latch.op e.latch)
          fresh := s.fresh + (outputBytes e.latch.op e.latch).length })) := by
  unfold resetUnit
  cases h : s.insts[k]? with
  | none => simp [h]
  | some e =>
    refine .inr ⟨e, rfl, ?_⟩
    cases hp : e.phase with
    | idle => exact .inl ⟨rfl, by simp [h, (not_busy_iff e).2 hp, State.setUnit]⟩
    | busy => exact .inr ⟨rfl, by simp [h, (busy_iff e).2 hp]⟩

end Sys2Proof.Machine
end

