-- ==== Sys2Proof/Laws/Decode.lean ====
section
/-! SUPPORT. The fields of a command word as numbers, and everything the decoder can answer. -/

namespace Sys2Proof

theorem opField_eq (w : Word) : opField w = w.toNat % 16 := by
  simp [opField, BitVec.extractLsb'_toNat]

theorem shamtField_eq (w : Word) : shamtField w = w.toNat / 16 % 16 := by
  simp [shamtField, BitVec.extractLsb'_toNat, Nat.shiftRight_eq_div_pow]

theorem aboveOp_eq (w : Word) : aboveOp w = w.toNat / 16 := by
  have := w.isLt
  simp [aboveOp, BitVec.extractLsb'_toNat, Nat.shiftRight_eq_div_pow]
  omega

theorem rsvField_eq (w : Word) : rsvField w = w.toNat / 2048 := by
  have := w.isLt
  simp [rsvField, BitVec.extractLsb'_toNat, Nat.shiftRight_eq_div_pow]
  omega

theorem dirField_eq (w : Word) : dirField w = decide (w.toNat / 256 % 2 = 1) := by
  simp [dirField, BitVec.getLsbD, Nat.testBit_eq_decide_div_mod_eq]

theorem rndField_eq (w : Word) : rndField w = decide (w.toNat / 512 % 2 = 1) := by
  simp [rndField, BitVec.getLsbD, Nat.testBit_eq_decide_div_mod_eq]

theorem sgnField_eq (w : Word) : sgnField w = decide (w.toNat / 1024 % 2 = 1) := by
  simp [sgnField, BitVec.getLsbD, Nat.testBit_eq_decide_div_mod_eq]

theorem or_byte (a b : Nat) (hb : b < 256) : a * 2 ^ 8 ||| b = a * 256 + b := by
  have h := Nat.two_pow_add_eq_or_of_lt (i := 8) (b := b) (by simpa using hb) a
  rw [Nat.mul_comm, ← h]
  omega

/-- The bytes of a word, put together, are the word. -/
theorem wordOfBytes_bytesOfWord (w : Word) :
    wordOfBytes (w.extractLsb' 0 8) (w.extractLsb' 8 8) (w.extractLsb' 16 8) (w.extractLsb' 24 8) = w := by
  apply BitVec.eq_of_toNat_eq
  have := w.isLt
  simp only [wordOfBytes, BitVec.toNat_append, BitVec.extractLsb'_toNat, Nat.shiftRight_eq_div_pow, Nat.shiftLeft_eq]
  rw [or_byte _ _ (by omega), or_byte _ _ (by omega), or_byte _ _ (by omega)]
  omega

end Sys2Proof
end

