-- ==== Sys2Proof/Laws/Numeric.lean ====
section
/-! SUPPORT. The width functions, W by entry, and grids written out. -/

namespace Sys2Proof.Machine

open Sys2Proof

/-! ## wrap16 commutes with the ring operations (42_hadamard8x8 R181) -/

theorem wrap16_sext16 (x : Half) : wrap16 (sext16 x) = x := BitVec.ofInt_toInt

theorem wrap16_add (v w : Int) : wrap16 (v + w) = wrap16 v + wrap16 w := BitVec.ofInt_add v w

theorem wrap16_mul (v w : Int) : wrap16 (v * w) = wrap16 v * wrap16 w := BitVec.ofInt_mul v w

theorem wrap16_neg (v : Int) : wrap16 (-v) = -wrap16 v := BitVec.ofInt_neg

theorem wrap16_sub (v w : Int) : wrap16 (v - w) = wrap16 v - wrap16 w := by
  rw [sub_eq_add_neg, wrap16_add, wrap16_neg, BitVec.sub_eq_add_neg]

@[simp] theorem wrap16_zero : wrap16 0 = 0 := rfl

/-- A value that fits in 16 bits signed is not changed by wrap16. -/
theorem sext16_wrap16 (v : Int) (h1 : -32768 ≤ v) (h2 : v < 32768) : sext16 (wrap16 v) = v := by
  rw [sext16, wrap16, BitVec.toInt_ofInt, Int.bmod_def]
  split <;> omega

/-- The sum of a 16-bit pattern is that of its signed value. -/
theorem add_eq_wrap16 (x y : Half) : x + y = wrap16 (sext16 x + sext16 y) := by
  rw [wrap16_add, wrap16_sext16, wrap16_sext16]

theorem sub_eq_wrap16 (x y : Half) : x - y = wrap16 (sext16 x - sext16 y) := by
  rw [wrap16_sub, wrap16_sext16, wrap16_sext16]

theorem sext16_bounds (x : Half) : -32768 ≤ sext16 x ∧ sext16 x ≤ 32767 := by
  have := x.isLt
  rw [sext16, BitVec.toInt_eq_toNat_cond]
  split <;> omega

/-! ## W -/

@[simp] theorem ofFn_entry (f : Nat → Half) (n : Nat) (h : n < 256) : (Work.ofFn f).entry n = f n := by
  simp [Work.ofFn, Work.entry, h]

theorem load8_grid (m : Memory) (L : Latch) (w : Work) (r c : Nat) (hr : r < 8) (hc : c < 8) :
    (load8 m L w).grid8 0 r c = coef m L L.src r c := by
  have h1 : 0 + 8 * r + c < 256 := by omega
  have h2 : 0 + 8 * r + c < 64 := by omega
  have h3 : (0 + 8 * r + c) / 8 = r := by omega
  have h4 : (0 + 8 * r + c) % 8 = c := by omega
  rw [Work.grid8, load8, ofFn_entry _ _ h1, if_pos h2, h3, h4]

theorem load16_grid (m : Memory) (L : Latch) (r c : Nat) (hr : r < 16) (hc : c < 16) :
    (load16 m L).grid16 r c = coef m L L.src r c := by
  have h1 : 16 * r + c < 256 := by omega
  have h3 : (16 * r + c) / 16 = r := by omega
  have h4 : (16 * r + c) % 16 = c := by omega
  rw [Work.grid16, load16, ofFn_entry _ _ h1, h3, h4]

/-- The tiles in W after phase 1. -/
theorem phase1_grid (w : Work) (t u v : Nat) (ht : t < 4) (hu : u < 8) (hv : v < 8) :
    (phase1 w).grid8 (64 * t) u v = had8Grid (tile w.grid16 t) u v := by
  have h1 : 64 * t + 8 * u + v < 256 := by omega
  have h2 : (64 * t + 8 * u + v) / 64 = t := by omega
  have h3 : (64 * t + 8 * u + v) / 8 % 8 = u := by omega
  have h4 : (64 * t + 8 * u + v) % 8 = v := by omega
  rw [Work.grid8, phase1, Work.ofTiles, ofFn_entry _ _ h1, h2, h3, h4]
  interval_cases t <;> rfl

/-! ## Grids -/

/-- Within the grid, writing it out changes nothing. -/
theorem formed8_eq (y : Nat → Nat → Half) (r c : Nat) (hr : r < 8) (hc : c < 8) : formed8 y r c = y r c := by
  have h1 : 8 * r + c < 64 := by omega
  have h3 : (8 * r + c) / 8 = r := by omega
  have h4 : (8 * r + c) % 8 = c := by omega
  simp [formed8, h1, h3, h4]

/-- A stage looks at entries 0 to 7 only. -/
theorem bfStage_congr (h : Nat) (a b : Nat → Half) (hh : h = 1 ∨ h = 2 ∨ h = 4) (hab : ∀ j < 8, a j = b j) (k : Nat)
    (hk : k < 8) : bfStage h a k = bfStage h b k := by
  rcases hh with rfl | rfl | rfl <;> interval_cases k <;> simp [bfStage, hab]

theorem bf8_congr (a b : Nat → Half) (hab : ∀ j < 8, a j = b j) (k : Nat) (hk : k < 8) : bf8 a k = bf8 b k := by
  refine bfStage_congr 4 _ _ (by simp) (fun j hj => ?_) k hk
  refine bfStage_congr 2 _ _ (by simp) (fun j hj => ?_) j hj
  exact bfStage_congr 1 _ _ (by simp) hab j hj

/-- The transform looks at the 8×8 grid only. -/
theorem had8Grid_congr (x y : Nat → Nat → Half) (hxy : ∀ r < 8, ∀ c < 8, x r c = y r c) (u v : Nat) (hu : u < 8)
    (hv : v < 8) : had8Grid x u v = had8Grid y u v := by
  refine bf8_congr _ _ (fun _ hr => ?_) u hu
  rw [formed8_eq _ _ _ hr hv, formed8_eq _ _ _ hr hv]
  exact bf8_congr _ _ (hxy _ hr) v hv

/-- The transform as a column pass over a row pass, without the written-out grid between them. -/
theorem had8Grid_eq (x : Nat → Nat → Half) (u v : Nat) (hu : u < 8) (hv : v < 8) :
    had8Grid x u v = bf8 (fun r => bf8 (x r) v) u :=
  bf8_congr _ _ (fun _ hr => formed8_eq _ _ _ hr hv) u hu

/-! ## The matrix -/

theorem abs_walsh (k j : Nat) : |walsh k j| = 1 := by simp [walsh]

/-- The order-8 transform grows a value by at most 64 (42_hadamard8x8 R184). -/
theorem abs_walsh8_le (x : Nat → Nat → Half) (b : Int) (hx : ∀ r < 8, ∀ c < 8, |sext16 (x r c)| ≤ b) (u v : Nat) :
    |walsh8 x u v| ≤ 64 * b := by
  have hrow : ∀ r ∈ Finset.range 8, |∑ c ∈ Finset.range 8, walsh u r * walsh v c * sext16 (x r c)| ≤ 8 * b := by
    intro r hr
    refine (Finset.abs_sum_le_sum_abs _ _).trans ?_
    calc _ ≤ ∑ c ∈ Finset.range 8, b := Finset.sum_le_sum fun c hc => by
          rw [abs_mul, abs_mul, abs_walsh, abs_walsh, one_mul, one_mul]
          exact hx r (Finset.mem_range.1 hr) c (Finset.mem_range.1 hc)
      _ = 8 * b := by simp
  refine (Finset.abs_sum_le_sum_abs _ _).trans ((Finset.sum_le_sum hrow).trans ?_)
  simp
  linarith

end Sys2Proof.Machine
end

