-- ==== Sys2Proof/Laws/PerInstr.lean ====
section
/-! SUPPORT. Statements about every command as syntax, one lemma per constructor. -/

namespace Sys2Proof.Laws

/-- A command's word has its reserved bits 31:11 at 0, and its OP field is 0x1 to 0x5 (30_encoding R101 to R103). -/
def EncodedFields.Statement (i : Instr) : Prop :=
  i.wf = true → (encode i).toNat < 2048 ∧ 1 ≤ opField (encode i) ∧ opField (encode i) ≤ 5

theorem EncodedFields.avg4 : EncodedFields.Statement .avg4 := by
  unfold EncodedFields.Statement
  decide

theorem EncodedFields.avg8 : EncodedFields.Statement .avg8 := by
  unfold EncodedFields.Statement
  decide

theorem EncodedFields.had8 : EncodedFields.Statement .had8 := by
  unfold EncodedFields.Statement
  decide

theorem EncodedFields.had16 : EncodedFields.Statement .had16 := by
  unfold EncodedFields.Statement
  decide

theorem EncodedFields.shl (s : Nat) : EncodedFields.Statement (.shl s) := by
  intro h
  have h : s < 16 := by simpa [Instr.wf] using h
  interval_cases s <;> decide

theorem EncodedFields.shr (s : Nat) : EncodedFields.Statement (.shr s) := by
  intro h
  have h : s < 16 := by simpa [Instr.wf] using h
  interval_cases s <;> decide

theorem EncodedFields.shrr (s : Nat) : EncodedFields.Statement (.shrr s) := by
  intro h
  have h : s < 16 := by simpa [Instr.wf] using h
  interval_cases s <;> decide

theorem EncodedFields.sra (s : Nat) : EncodedFields.Statement (.sra s) := by
  intro h
  have h : s < 16 := by simpa [Instr.wf] using h
  interval_cases s <;> decide

theorem EncodedFields.srar (s : Nat) : EncodedFields.Statement (.srar s) := by
  intro h
  have h : s < 16 := by simpa [Instr.wf] using h
  interval_cases s <;> decide

end Sys2Proof.Laws
end

