-- ==== Sys2Proof/Laws/Step.lean ====
section
/-! SUPPORT. Everything a step of the machine can do. -/

namespace Sys2Proof.Machine

open Sys2Proof

/-- The engine's step: nothing on an idle or missing unit, else the latched command (10_state R47). -/
theorem engineTurn_cases (s : State) (k : Nat) :
    ((∀ e, s.insts[k]? = some e → e.phase = .idle) ∧ engineTurn s k = .next s) ∨
    ∃ e, s.insts[k]? = some e ∧ e.phase = .busy ∧ engineTurn s k = exec e.latch.op { s with sel := k } := by
  unfold engineTurn
  cases h : s.insts[k]? with
  | none => simp [h]
  | some e =>
    cases hp : e.phase with
    | idle =>
      refine .inl ⟨fun d hd => ?_, by simp [h, (not_busy_iff e).2 hp]⟩
      injection hd with hd
      rw [← hd, hp]
    | busy => exact .inr ⟨e, rfl, hp, by simp [h, (busy_iff e).2 hp]⟩

/-! ## A step whose mover is known -/

theorem step_host_write (s : State) (addr n v : Nat) (h : s.hostNext (.write addr n v)) :
    step s = hostStore s.hostUsed addr n v := by
  obtain ⟨hm, hh⟩ := h
  simp only [step, hm, takeTurn, hostTurn]
  cases hs : s.host with
  | nil => simp [hs] at hh
  | cons x rest =>
    simp only [hs, List.head?_cons, Option.some.injEq] at hh
    subst hh
    simp [State.hostUsed, hs]

theorem step_host_read (s : State) (addr n : Nat) (h : s.hostNext (.read addr n)) :
    step s = hostLoad s.hostUsed addr n := by
  obtain ⟨hm, hh⟩ := h
  simp only [step, hm, takeTurn, hostTurn]
  cases hs : s.host with
  | nil => simp [hs] at hh
  | cons x rest =>
    simp only [hs, List.head?_cons, Option.some.injEq] at hh
    subst hh
    simp [State.hostUsed, hs]

theorem step_host_wait (s : State) (base : Nat) (h : s.hostNext (.wait base)) :
    step s = hostWait s.turnUsed base s.host.tail := by
  obtain ⟨hm, hh⟩ := h
  simp only [step, hm, takeTurn, hostTurn]
  cases hs : s.host with
  | nil => simp [hs] at hh
  | cons x rest =>
    simp only [hs, List.head?_cons, Option.some.injEq] at hh
    subst hh
    simp [State.turnUsed, hs]

theorem step_engine (s : State) (k : Nat) (h : s.mover = .engine k) : step s = engineTurn s.turnUsed k := by
  simp only [step, h, takeTurn, State.turnUsed]

theorem step_reset (s : State) (k : Nat) (h : s.mover = .reset k) : step s = .next (resetUnit s.turnUsed k) := by
  simp only [step, h, takeTurn, State.turnUsed]

/-- Using up a turn or a host step leaves the invariant as it was. -/
theorem hostUsed_inv (s : State) (h : s.Inv) : s.hostUsed.Inv := h

theorem turnUsed_inv (s : State) (h : s.Inv) : s.turnUsed.Inv := h

/-! ## Inversion -/

/-- A step taken by the host: everything it can do. `s.turnUsed` is the state in which it moves. -/
inductive HostDid (s t : State) : Prop where
  /-- Only the value returned and the host's place change. -/
  | quiet (v : Nat) (hs : List HostStep) : t = { s.turnUsed with hostRead := v, host := hs } → HostDid s t
  /-- A write of ordinary memory that no running command owns. -/
  | memory (addr n v : Nat) (rest : List HostStep) : s.host = .write addr n v :: rest →
      (∀ b ∈ bytesFrom addr n, admits s.memAdmit b = true) → s.owned ⟨.host, .write, addr, n⟩ = false →
      t = { s.turnUsed with host := rest, mem := s.mem.writeBytes addr n v } → HostDid s t
  /-- A write of one slot of one unit. -/
  | window (addr v k : Nat) (e f : Inst) (rest : List HostStep) : s.host = .write addr 4 v :: rest → addr % 4 = 0 →
      s.insts[k]? = some e → (∃ a ∈ bytesFrom addr 4, e.window.holds a = true) →
      WindowWrite s e (slotAt (addr - e.base)) (BitVec.ofNat 32 v) f →
      t = { s.turnUsed with host := rest, insts := s.insts.set k f } → HostDid s t

/-- Everything a step that goes on can do, by who moves. -/
inductive StepDid (s t : State) : Prop where
  | host : s.mover = .host → HostDid s t → StepDid s t
  /-- The turn of an engine with nothing to complete, or the reset of a unit that does not exist. -/
  | nothing : s.mover ≠ .host → (∀ k e, s.mover = .engine k → s.insts[k]? = some e → e.phase = .idle) →
      (∀ k, s.mover = .reset k → s.insts[k]? = none) → t = s.turnUsed → StepDid s t
  /-- A completion (10_state R47). -/
  | completion (k : Nat) (e f : Inst) : s.mover = .engine k → s.insts[k]? = some e → e.phase = .busy →
      preFault s.memAdmit e.latch.op e.latch = none → s.ownershipOk k e.latch.op e.latch →
      CompletedAs e.latch.op { s.turnUsed with sel := k } t e f → StepDid s t
  /-- Reset of an idle unit. -/
  | resetIdle (k : Nat) (e : Inst) : s.mover = .reset k → s.insts[k]? = some e → e.phase = .idle →
      t = { s.turnUsed with insts := s.insts.set k (Inst.reset e.base) } → StepDid s t
  /-- Reset of a busy unit (70_reset R251). -/
  | resetBusy (k : Nat) (e : Inst) : s.mover = .reset k → s.insts[k]? = some e → e.phase = .busy →
      t = { s.turnUsed with
        insts := s.insts.set k (Inst.reset e.base)
        mem := s.mem.scramble s.fresh (outputBytes e.latch.op e.latch)
        fresh := s.fresh + (outputBytes e.latch.op e.latch).length } → StepDid s t

/-- The one inversion of a step. -/
theorem step_next (s t : State) (h : step s = .next t) : StepDid s t := by
  unfold step at h
  cases hm : s.mover with
  | host =>
    rw [hm] at h
    refine .host hm ?_
    rcases hostTurn_next s.turnUsed t h with ⟨v, hs, rfl⟩ | ⟨addr, n, v, rest, hs, hc⟩
    · exact .quiet v hs rfl
    · rcases hc with ⟨h1, h2, rfl⟩ | ⟨e, k, f, hk, hw, rfl, ha, hf, rfl⟩
      · exact .memory addr n v rest hs h1 h2 rfl
      · refine .window addr v k e f rest hs ha hk hw ?_ rfl
        cases hf with
        | collide h1 h2 => exact .collide h1 h2
        | illegal x h1 h2 h3 => exact .illegal x h1 h2 h3
        | accepted i h1 h2 h3 h4 => exact .accepted i h1 h2 h3 h4
        | slot h1 => exact .slot h1
  | engine k =>
    rw [hm] at h
    have h' : engineTurn s.turnUsed k = .next t := h
    rcases engineTurn_cases s.turnUsed k with ⟨hidle, hc⟩ | ⟨e, he, hb, hc⟩
    · rw [hc] at h'
      injection h' with h'
      refine .nothing (by simp [hm]) (fun j e hj he => ?_) (by simp [hm]) h'.symm
      rw [hm] at hj
      injection hj with hj
      subst hj
      exact hidle e he
    · rw [hc] at h'
      obtain ⟨d, f, hd, hp, ho, hcomp⟩ := exec_next _ _ _ h'
      have : d = e := by
        have h1 : s.insts[k]? = some d := hd
        have h2 : s.insts[k]? = some e := he
        rw [h1] at h2
        injection h2
      subst this
      exact .completion k d f hm he hb hp ho hcomp
  | reset k =>
    rw [hm] at h
    have h' : Host.Outcome.next (resetUnit s.turnUsed k) = (.next t : Host.Outcome State Fault Refusal) := h
    injection h' with h'
    rcases resetUnit_cases s.turnUsed k with ⟨hn, hc⟩ | ⟨e, he, ⟨hp, hc⟩ | ⟨hp, hc⟩⟩
    · refine .nothing (by simp [hm]) (by simp [hm]) (fun j hj => ?_) (by rw [← h', hc])
      rw [hm] at hj
      injection hj with hj
      subst hj
      exact hn
    · exact .resetIdle k e hm he hp (by rw [← h', hc]; rfl)
    · exact .resetBusy k e hm he hp (by rw [← h', hc]; rfl)

/-! ## What becomes of one unit -/

/-- The unit that a step leaves at place k, from the one that was there: unchanged; written by the host at one slot of its
window; completed; or reset. -/
inductive UnitDid (s t : State) (k : Nat) (e f : Inst) : Prop where
  | same : f = e → UnitDid s t k e f
  | window (x : Slot) (v : Nat) : s.hostNext (.write (e.base + x.offset) 4 v) →
      WindowWrite s e x (BitVec.ofNat 32 v) f → UnitDid s t k e f
  | completion : s.mover = .engine k → e.phase = .busy → CompletedAs e.latch.op { s.turnUsed with sel := k } t e f →
      UnitDid s t k e f
  | reset : s.mover = .reset k → f = Inst.reset e.base → UnitDid s t k e f

/-- A list with one place set, read at a place that exists. -/
theorem set_getElem?_cases (l : List Inst) (j k : Nat) (d e f g : Inst) (hd : l[j]? = some d) (he : l[k]? = some e)
    (hf : (l.set j g)[k]? = some f) : (j = k ∧ d = e ∧ f = g) ∨ f = e := by
  by_cases hjk : j = k
  · subst hjk
    have hlt := (List.getElem?_eq_some_iff.1 he).1
    rw [hd] at he
    injection he with he
    rw [List.getElem?_set_self hlt] at hf
    injection hf with hf
    exact .inl ⟨rfl, he, hf.symm⟩
  · rw [List.getElem?_set_ne hjk, he] at hf
    injection hf with hf
    exact .inr hf.symm

theorem step_unit (s t : State) (k : Nat) (e f : Inst) (hi : s.Inv) (h : step s = .next t) (hk : s.insts[k]? = some e)
    (hf : t.insts[k]? = some f) : UnitDid s t k e f := by
  have keep : t.insts = s.insts → UnitDid s t k e f := by
    intro ht
    rw [ht, hk] at hf
    injection hf with hf
    exact .same hf.symm
  cases step_next s t h with
  | host hm hd =>
    cases hd with
    | quiet v hs ht => exact keep (by rw [ht]; rfl)
    | memory addr n v rest hs ha ho ht => exact keep (by rw [ht]; rfl)
    | window addr v j d g rest hs h4 hj hw hg ht =>
      have hti : t.insts = s.insts.set j g := by rw [ht]
      rw [hti] at hf
      rcases set_getElem?_cases _ _ _ _ _ _ _ hj hk hf with ⟨rfl, rfl, rfl⟩ | rfl
      · have haddr := window_access _ _ (hi.2.2.2.2 d (List.mem_of_getElem? hk)) addr h4 hw
        refine .window (slotAt (addr - d.base)) v ⟨hm, ?_⟩ hg
        rw [← haddr, hs]
        rfl
      · exact .same rfl
  | nothing _ _ _ ht => exact keep (by rw [ht]; rfl)
  | completion j d g hm hj hb hp ho hc =>
    have hti : t.insts = s.insts.set j g := by rw [hc.state]; rfl
    rw [hti] at hf
    rcases set_getElem?_cases _ _ _ _ _ _ _ hj hk hf with ⟨rfl, rfl, rfl⟩ | rfl
    · exact .completion hm hb hc
    · exact .same rfl
  | resetIdle j d hm hj hb ht =>
    have hti : t.insts = s.insts.set j (Inst.reset d.base) := by rw [ht]
    rw [hti] at hf
    rcases set_getElem?_cases _ _ _ _ _ _ _ hj hk hf with ⟨rfl, rfl, rfl⟩ | rfl
    · exact .reset hm rfl
    · exact .same rfl
  | resetBusy j d hm hj hb ht =>
    have hti : t.insts = s.insts.set j (Inst.reset d.base) := by rw [ht]
    rw [hti] at hf
    rcases set_getElem?_cases _ _ _ _ _ _ _ hj hk hf with ⟨rfl, rfl, rfl⟩ | rfl
    · exact .reset hm rfl
    · exact .same rfl

/-- A host write of a slot of the window of unit k (10_state R33). -/
theorem step_window_write (s : State) (k : Nat) (e : Inst) (x : Slot) (v : Nat) (hi : s.Inv) (hk : s.insts[k]? = some e)
    (h : s.hostNext (.write (e.base + x.offset) 4 v)) : step s = writeWindow s.hostUsed k e x (BitVec.ofNat 32 v) := by
  rw [step_host_write _ _ _ _ h]
  exact hostStore_slot s.hostUsed (hostUsed_inv s hi) k e hk x v

/-- A host read of a slot of the window of unit k. -/
theorem step_window_read (s : State) (k : Nat) (e : Inst) (x : Slot) (hi : s.Inv) (hk : s.insts[k]? = some e)
    (h : s.hostNext (.read (e.base + x.offset) 4)) :
    step s = .next { s.hostUsed with hostRead := (e.readSlot x).toNat } := by
  rw [step_host_read _ _ _ h]
  exact hostLoad_slot s.hostUsed (hostUsed_inv s hi) k e hk x

/-! ## The invariant after one unit changed -/

/-- A state that differs in one unit, whose window stays where it is, and in memory. -/
theorem inv_of_set (s t : State) (hi : s.Inv) (k : Nat) (e f : Inst) (hk : s.insts[k]? = some e) (hb : f.base = e.base)
    (hok : f.ok s.memAdmit = true) (hwf : t.mem.wf = true) (hc : ∀ c ∈ t.mem, admits s.memAdmit c.1 = true)
    (hta : t.memAdmit = s.memAdmit) (hti : t.insts = s.insts.set k f) : t.Inv := by
  obtain ⟨-, -, h3, h4, h5⟩ := hi
  have hmap : t.insts.map Inst.base = s.insts.map Inst.base := by
    rw [hti, List.map_set, hb]
    obtain ⟨hlt, he⟩ := List.getElem?_eq_some_iff.1 hk
    refine List.ext_getElem? fun j => ?_
    by_cases hj : k = j
    · subst hj; simp [hlt, he]
    · simp [hj]
  refine ⟨hwf, by rwa [hta], fun h => h3 (by simpa [hti] using h), hmap ▸ h4, fun x hx => ?_⟩
  rw [hta]
  rw [hti] at hx
  rcases List.mem_or_eq_of_mem_set hx with hx | rfl
  · exact h5 x hx
  · exact hok

end Sys2Proof.Machine
end

