-- ==== Sys2Proof/Tests/Slice0.lean ====
section
/-! SUPPORT. The model's own tests. Every expected value is from spec/ (named in the comment), and every statement with
hypotheses has a witness: a concrete state and operands that meet all of them. -/

namespace Sys2Proof.Tests

set_option Elab.async false

open Sys2Proof Sys2Proof.Machine

/-! ## Well-formed terms (30_encoding R101: SHAMT has four bits) -/

theorem test_wf_refuses_shl_16 : Instr.wf (.shl 16) = false := by decide
theorem test_wf_refuses_shr_16 : Instr.wf (.shr 16) = false := by decide
theorem test_wf_refuses_shrr_16 : Instr.wf (.shrr 16) = false := by decide
theorem test_wf_refuses_sra_31 : Instr.wf (.sra 31) = false := by decide
theorem test_wf_refuses_srar_16 : Instr.wf (.srar 16) = false := by decide
theorem test_wf_takes_the_bounds : Instr.wf (.shl 0) = true ∧ Instr.wf (.srar 15) = true ∧ Instr.wf .had16 = true := by
  decide

/-! ## Decoding: words written out bit by bit (30_encoding R101 to R105)

RSV is 31:11, SGN 10, RND 9, DIR 8, SHAMT 7:4, OP 3:0. -/

/-- A word from its six fields. -/
def word (rsv : BitVec 21) (sgn rnd dir : BitVec 1) (shamt op : BitVec 4) : Word := rsv ++ sgn ++ rnd ++ dir ++ shamt ++ op

theorem test_decode_avg4 : decode (word 0 0 0 0 0b0000 0b0001) = .ok .avg4 := by decide
theorem test_decode_avg8 : decode (word 0 0 0 0 0b0000 0b0010) = .ok .avg8 := by decide
theorem test_decode_had8 : decode (word 0 0 0 0 0b0000 0b0011) = .ok .had8 := by decide
theorem test_decode_had16 : decode (word 0 0 0 0 0b0000 0b0100) = .ok .had16 := by decide
theorem test_decode_shl : decode (word 0 0 0 1 0b1001 0b0101) = .ok (.shl 9) := by decide
theorem test_decode_shr : decode (word 0 0 0 0 0b0111 0b0101) = .ok (.shr 7) := by decide
theorem test_decode_shrr : decode (word 0 0 1 0 0b1000 0b0101) = .ok (.shrr 8) := by decide
theorem test_decode_sra : decode (word 0 1 0 0 0b1110 0b0101) = .ok (.sra 14) := by decide
theorem test_decode_srar : decode (word 0 1 1 0 0b0001 0b0101) = .ok (.srar 1) := by decide

/-- 95_test_vectors 2.1, the illegal rows. -/
theorem test_decode_illegal :
    ([0x00000000, 0x00000006, 0x0000000F, 0x00000011, 0x00000013, 0x00000804, 0x80000001, 0x00000305, 0x00000505,
      0x00000705, 0x00000805, 0x00010005, 0x80000005, 0xFFFFFFFF] : List Word).all
      (fun w => match decode w with | .ok _ => false | .error _ => true) = true := by decide

/-- One length, 32 bits (30_encoding R100); little-endian (20_memory R72). -/
theorem test_decode_bytes : decodeBytes [0xF5, 0x01, 0x00, 0x00] = .ok (.shl 15) ∧
    decodeBytes [0x05, 0x00, 0x00] = .error .notOneWord ∧ decodeBytes [] = .error .notOneWord := by decide

/-- 30_encoding R108, the word of the example rows of 95_test_vectors 2.3. -/
theorem test_encode : encode (.shl 2) = 0x00000125 ∧ encode (.shr 15) = 0x000000F5 ∧ encode (.shrr 4) = 0x00000245 ∧
    encode (.sra 1) = 0x00000415 ∧ encode (.srar 15) = 0x000006F5 ∧ encode .had16 = 0x00000004 := by decide

/-! ## Small machines -/

/-- One unit: as after reset, but changed by `f`. -/
def machine (f : Inst → Inst) (mem : Memory) (host : List HostStep) (turns : List Agent) : State :=
  { State.reset with insts := [f (Inst.reset Config.resetBase)], mem := mem, host := host, turns := turns }

/-- The unit runs `i` on these latched operands. -/
def running (i : Instr) (src dst : Word) (stride operand : Half) (e : Inst) : Inst :=
  { e with phase := .busy, latch := ⟨i, src, dst, stride, operand⟩ }

/-- The unit has these registers. -/
def withRegs (src dst : Word) (stride operand : Half) (e : Inst) : Inst :=
  { e with src := src, dst := dst, stride := stride, operand := operand }

/-- A machine whose engine is about to complete `i`. -/
def about (i : Instr) (src dst : Word) (stride operand : Half) (mem : Memory) : State :=
  machine (running i src dst stride operand) mem [] []

/-- The outcome is a next state that passes `p`. -/
def after (o : Host.Outcome State Fault Refusal) (p : State → Bool) : Bool :=
  match o with
  | .next t => p t
  | .fault _ => false
  | .refused _ => false

theorem after_next {o : Host.Outcome State Fault Refusal} {p : State → Bool} (h : after o p = true) :
    ∃ t, o = .next t ∧ p t = true := by
  cases o with
  | next t => exact ⟨t, rfl, h⟩
  | fault _ => cases h
  | refused _ => cases h

/-- The outcome is the fault `f`. -/
def stops (o : Host.Outcome State Fault Refusal) (f : Fault) : Bool :=
  match o with
  | .next _ => false
  | .fault g => g == f
  | .refused _ => false

/-- RESULT and STATUS of every unit. -/
def results (t : State) : List (Half × Word) := t.insts.map (fun e => (e.result, e.statusWord))

/-- The result register after a completion, with DONE set and BUSY clear. -/
def gives (s : State) (y : Half) : Bool := after (step s) (fun t => results t == [(y, 2)])

/-! ## Commands: one completion each -/

/-! 95_test_vectors 2.3. -/

theorem test_shl_wraps : gives (about (.shl 2) 0 0 0 0x4001 []) 0x0004 = true := by decide +kernel
theorem test_shl_15 : gives (about (.shl 15) 0 0 0 0x0001 []) 0x8000 = true := by decide +kernel
theorem test_shr_15 : gives (about (.shr 15) 0 0 0 0xFFFF []) 0x0001 = true := by decide +kernel
theorem test_shr_0 : gives (about (.shr 0) 0 0 0 0xFFFF []) 0xFFFF = true := by decide +kernel
theorem test_shrr_exact_sum : gives (about (.shrr 1) 0 0 0 0xFFFF []) 0x8000 = true := by decide +kernel
theorem test_shrr_tie : gives (about (.shrr 4) 0 0 0 0x0008 []) 0x0001 = true := by decide +kernel
theorem test_sra_floors : gives (about (.sra 1) 0 0 0 0xFFFD []) 0xFFFE = true := by decide +kernel
theorem test_sra_15 : gives (about (.sra 15) 0 0 0 0x8000 []) 0xFFFF = true := by decide +kernel
theorem test_srar_tie : gives (about (.srar 1) 0 0 0 0xFFFD []) 0xFFFF = true := by decide +kernel
theorem test_srar_below_tie : gives (about (.srar 4) 0 0 0 0xFFF7 []) 0xFFFF = true := by decide +kernel

/-- A1, the source's own example: 1 to 16, stride 4. -/
theorem test_avg4_one_to_sixteen :
    gives (about .avg4 0x1000 0 4 0 ((List.range 16).map (fun n => (0x1000 + n, BitVec.ofNat 8 (n + 1))))) 9 = true := by
  decide +kernel

/-- A7: 23 at (2, 1), stride 16. -/
theorem test_avg4_stride : gives (about .avg4 0x1000 0 16 0 [(0x1021, 23)]) 1 = true := by decide +kernel

/-- A12: no quadrant is rounded on its own. -/
theorem test_avg8_exact_sum : gives (about .avg8 0x1000 0 8 0 [(0x1000, 8), (0x1004, 8)]) 0 = true := by decide +kernel

/-- A10: 32 at (7, 7), a tie. -/
theorem test_avg8_last_sample : gives (about .avg8 0x1000 0 8 0 [(0x103F, 32)]) 1 = true := by decide +kernel

/-- H8-8: the impulse of H8-2 at 0x2000, output at 0x2010 over rows 1 to 7 of the input. -/
theorem test_had8_overlap :
    after (step (about .had8 0x2000 0x2010 8 0 [(0x2014, 1)])) (fun t =>
      t.mem.readHalf 0x2010 == 1 && t.mem.readHalf 0x2014 == 0xFFFF && t.mem.readHalf 0x2020 == 0xFFFF &&
        t.mem.readHalf 0x2024 == 1 && t.mem.readHalf 0x208E == 1 && t.mem.readHalf 0x2000 == 0 &&
        results t == [(0, 2)]) = true := by
  decide +kernel

/-- H8-3 on one row: the ramp 0 to 7 in row 0 gives the row 28, −4, −8, 0, −16, 0, 0, 0 in every row (R183 by hand). -/
theorem test_had8_orientation :
    after (step (about .had8 0x2000 0x3000 8 0 ((List.range 7).map (fun n => (0x2002 + 2 * n, BitVec.ofNat 8 (n + 1))))))
      (fun t => (List.range 8).map (fun c => sext16 (t.mem.readHalf (0x3070 + 2 * c))) == [28, -4, -8, 0, -16, 0, 0, 0]) =
      true := by
  decide +kernel

/-- Program P3, H16-10: 2 at (9, 1), stride 20, tile-major output. -/
theorem test_had16_program_p3 :
    after (step (about .had16 0x3000 0x4000 20 0 [(0x316A, 2)])) (fun t =>
      t.mem.readHalf 0x4000 == 1 && t.mem.readHalf 0x4002 == 0xFFFF && t.mem.readHalf 0x4010 == 0xFFFF &&
        t.mem.readHalf 0x4080 == 1 && t.mem.readHalf 0x4100 == 0xFFFF && t.mem.readHalf 0x4102 == 1 &&
        t.mem.readHalf 0x4180 == 0xFFFF && t.mem.readHalf 0x41FE == 0xFFFF && results t == [(0, 2)]) = true := by
  decide +kernel

/-- R203, the odd negative sum of H16-5: −3 halves to −2; and H16-15: 65536 halves to 32768, which wraps. -/
theorem test_had16_halves_down : wrap16 (shrFloor (-3) 1) = 0xFFFE ∧ wrap16 (shrFloor 65536 1) = 0x8000 := by decide

/-! ## The command and status interface (95_test_vectors 2.2) -/

/-- The host writes `v` at `off` of the window. -/
def hostWrites (f : Inst → Inst) (off v : Nat) : State :=
  machine f [] [.write (Config.resetBase + off) 4 v] [.host]

/-- The host reads at `off` of the window. -/
def hostReads (f : Inst → Inst) (off : Nat) : State := machine f [] [.read (Config.resetBase + off) 4] [.host]

/-- A unit with these flags. -/
def flags (done illegal collide : Bool) (e : Inst) : Inst := { e with done := done, illegal := illegal, collide := collide }

/-- A unit that runs SHR #0. -/
def busyShr (e : Inst) : Inst := running (.shr 0) 0 0 0 0x1234 e

/-- STATUS after the step, one value for each unit. -/
def status (s : State) (w : Word) : Bool := after (step s) (fun t => t.insts.map Inst.statusWord == [w])

theorem test_st1 : status (hostWrites id 0 0x00000000) 0x4 = true := by decide +kernel
theorem test_st2 : status (hostWrites (flags true false false) 0 0x00000006) 0x6 = true := by decide +kernel
theorem test_st3 : status (hostWrites (flags true false false) 0 0x00000005) 0x1 = true := by decide +kernel
theorem test_st4 : status (hostWrites busyShr 0 0x00000000) 0x9 = true := by decide +kernel
theorem test_st5 : status (machine (fun e => flags false false true (busyShr e)) [] [] []) 0xA = true := by decide +kernel
theorem test_st6 : status (hostWrites (flags true true true) 4 0x00000004) 0xA = true := by decide +kernel
theorem test_st7 : status (hostWrites (flags true true true) 4 0xFFFFFFFF) 0x0 = true := by decide +kernel
theorem test_st8 : status (hostWrites busyShr 4 0x00000001) 0x1 = true := by decide +kernel
theorem test_st10 :
    after (step (hostReads (withRegs 1 2 3 4) 0)) (fun t => t.hostRead == 0) = true ∧
    after (step (hostReads (withRegs 1 2 3 4) 0x1C)) (fun t => t.hostRead == 0) = true := by decide +kernel
theorem test_st11 : after (step (hostWrites id 0x10 0x12345678)) (fun t => t.insts.map Inst.stride == [0x5678]) = true := by
  decide +kernel

/-- Programs P1 and P4: acceptance loads the latch with the registers as they stand. -/
theorem test_acceptance_latches :
    after (step (hostWrites (withRegs 0x1000 0 4 0) 0 0x00000001))
      (fun t => t.insts.map Inst.latch == [⟨.avg4, 0x1000, 0, 4, 0⟩]) = true := by decide +kernel

/-! ## Model faults: the precondition vectors of 95_test_vectors 2.4 and the rules of 60_exceptions R222 -/

theorem test_mf3_avg4 : stops (step (hostWrites (withRegs 0 0 3 0) 0 1)) (.mf3 ⟨.avg4, 0, 0, 3, 0⟩) = true := by
  decide +kernel
theorem test_mf3_had16 : stops (step (hostWrites (withRegs 0 0 15 0) 0 4)) (.mf3 ⟨.had16, 0, 0, 15, 0⟩) = true := by
  decide +kernel
theorem test_mf2_before_mf3 :
    stops (step (hostWrites (withRegs 0x2001 0 0 0) 0 3)) (.mf2 ⟨.had8, 0x2001, 0, 0, 0⟩) = true := by decide +kernel
theorem test_mf1_never_wraps :
    stops (step (hostWrites (withRegs 0xFFFFFFF0 0 5 0) 0 1)) (.mf1 ⟨.avg4, 0xFFFFFFF0, 0, 5, 0⟩) = true ∧
    status (hostWrites (withRegs 0xFFFFFFF0 0 4 0) 0 1) 0x1 = true := by decide +kernel
theorem test_mf5 :
    stops (step (machine id [] [.read (Config.resetBase + 4) 2] [])) (.mf5 ⟨.host, .read, 0xF0000004, 2⟩) = true ∧
    stops (step (machine id [] [.write (Config.resetBase + 2) 4 0] [])) (.mf5 ⟨.host, .write, 0xF0000002, 4⟩) = true := by
  decide +kernel
theorem test_mf4 :
    stops (step (machine (running .had8 0x2000 0x3000 8 0) [] [.read 0x307F 1] [.host]))
      (.mf4 ⟨.host, .read, 0x307F, 1⟩) = true ∧
    stops (step (machine (running .had8 0x2000 0x3000 8 0) [] [.write 0x2000 1 7] [.host]))
      (.mf4 ⟨.host, .write, 0x2000, 1⟩) = true ∧
    after (step (machine (running .had8 0x2000 0x3000 8 0) [] [.read 0x2000 1] [.host])) (fun _ => true) = true := by
  decide +kernel

/-- 20_memory R88: an access of owned bytes and of bytes that nothing backs is MF4; beside it, refused. -/
theorem test_mf4_before_unbacked :
    stops (step (machine (running .had8 0x2000 0xFFFFFF80 8 0) [] [.read 0xFFFFFFFE 4] [.host]))
      (.mf4 ⟨.host, .read, 0xFFFFFFFE, 4⟩) = true ∧
    stops (step (machine (running .had8 0xFFFFFF80 0x2000 8 0) [] [.write 0xFFFFFFFF 2 0] [.host]))
      (.mf4 ⟨.host, .write, 0xFFFFFFFF, 2⟩) = true ∧
    after (step (machine (running .had8 0xFFFFFF80 0x2000 8 0) [] [.read 0xFFFFFFFF 2] [.host])) (fun _ => true) =
      false := by
  decide +kernel

/-! ## A placed word runs next (log 3) -/

theorem test_placed_word_runs :
    after (step (State.reset.withFetchWord 32 0x00000125)) (fun t => results t == [(0, 2)]) = true ∧
    after (step ((machine (withRegs 0x1000 0 4 0) [(0x1000, 8)] [] []).withFetchWord 32 0x00000001))
      (fun t => results t == [(1, 2)]) = true ∧
    after (step (State.reset.withFetchWord 32 0x00000011)) (fun t => results t == [(0, 4)]) = true := by
  decide +kernel

/-! ## Witnesses: states and operands that meet the hypotheses of the statements -/

/-- The unit of a small machine. -/
theorem unit_of_machine (f : Inst → Inst) (mem : Memory) (host : List HostStep) (turns : List Agent) :
    (machine f mem host turns).insts[0]? = some (f (Inst.reset Config.resetBase)) := rfl

theorem witness_wf : Instr.wf (.shl 15) = true ∧ Instr.wf .had16 = true := by decide

theorem witness_EncodeOfDecode : decode 0x000006F5 = .ok (.srar 15) ∧ decode 0x00000004 = .ok .had16 := by decide

theorem witness_DecodeIsTheMatchMaskTable :
    (∃ r ∈ commandTable, r.isWord 0x000004F5 = true) ∧ (∀ r ∈ commandTable, r.isWord 0x00000305 = false) := by decide

theorem witness_IllegalWords :
    (∃ x, decode (BitVec.ofNat 32 0x11) = .error x) ∧
    ((hostWrites busyShr 0 0x11).Inv ∧ (hostWrites busyShr 0 0x11).hostNext (.write Config.resetBase 4 0x11)) ∧
    ((hostWrites (flags true true true) 0 0x11).Inv ∧
      (hostWrites (flags true true true) 0 0x11).hostNext (.write Config.resetBase 4 0x11)) :=
  ⟨⟨.reservedBits, by decide⟩, ⟨by decide +kernel, by decide +kernel, by decide +kernel⟩,
    ⟨by decide +kernel, by decide +kernel, by decide +kernel⟩⟩

/-- For the five shifts, at both ends of the range of the amount. -/
theorem witness_Shifts : (about (.shl 15) 0 0 0 0x4001 []).insts[0]? = some (running (.shl 15) 0 0 0 0x4001
    (Inst.reset Config.resetBase)) ∧ 0 < 16 ∧ 15 < 16 := ⟨unit_of_machine _ _ _ _, by decide, by decide⟩

theorem witness_Avg4 :
    let s := about .avg4 0xFFFFFFF0 0 4 0 [(0xFFFFFFFF, 255)]
    let L : Latch := ⟨.avg4, 0xFFFFFFF0, 0, 4, 0⟩
    s.insts[s.sel]?.map Inst.latch = some L ∧ 4 ≤ L.stride.toNat ∧
    (∀ r < 4, ∀ c < 4, admits s.memAdmit (L.src.toNat + r * L.stride.toNat + c) = true) ∧ s.ownershipOk s.sel .avg4 L :=
  ⟨by decide +kernel, by decide, by decide +kernel, (engineConflict_eq_none_iff _ _ _ _).1 (by decide +kernel)⟩

theorem witness_Avg4_faults :
    (3 : Half).toNat < 4 ∧ 4 ≤ (5 : Half).toNat ∧
    ∃ r < 4, ∃ c < 4, admits State.reset.memAdmit ((0xFFFFFFF0 : Word).toNat + r * (5 : Half).toNat + c) = false := by
  decide +kernel

theorem witness_Avg8 :
    let s := about .avg8 0xFFFFFFC0 0 8 0 [(0xFFFFFFFF, 255)]
    let L : Latch := ⟨.avg8, 0xFFFFFFC0, 0, 8, 0⟩
    s.insts[s.sel]?.map Inst.latch = some L ∧ 8 ≤ L.stride.toNat ∧
    (∀ r < 8, ∀ c < 8, admits s.memAdmit (L.src.toNat + r * L.stride.toNat + c) = true) ∧ s.ownershipOk s.sel .avg8 L :=
  ⟨by decide +kernel, by decide, by decide +kernel, (engineConflict_eq_none_iff _ _ _ _).1 (by decide +kernel)⟩

theorem witness_Avg8_faults :
    (7 : Half).toNat < 8 ∧ 8 ≤ (9 : Half).toNat ∧
    ∃ r < 8, ∃ c < 8, admits State.reset.memAdmit ((0xFFFFFFC0 : Word).toNat + r * (9 : Half).toNat + c) = false := by
  decide +kernel

theorem witness_AverageInRangeAndExactOnUniformBlocks :
    let m : Memory := (List.range 16).map (fun n => (0x1000 + n, 200))
    (∃ t, exec .avg4 (about .avg4 0x1000 0 4 0 m) = .next t ∧ (t.insts[t.sel]?.map Inst.result == some 200) = true) ∧
    (∀ r < 4, ∀ c < 4, m.read (0x1000 + r * 4 + c) = 200) :=
  ⟨after_next (by decide +kernel), by decide +kernel⟩

theorem witness_AverageInRange_avg8 :
    let m : Memory := (List.range 64).map (fun n => (0x1000 + n, 255))
    (∃ t, exec .avg8 (about .avg8 0x1000 0 8 0 m) = .next t ∧ (t.insts[t.sel]?.map Inst.result == some 255) = true) ∧
    (∀ r < 8, ∀ c < 8, m.read (0x1000 + r * 8 + c) = 255) :=
  ⟨after_next (by decide +kernel), by decide +kernel⟩

/-- In place, at the end of memory: the last byte is at 0xFFFFFFFF. -/
theorem witness_Had8WritesTheTransform :
    let s := about .had8 0xFFFFFF80 0xFFFFFF80 8 0 [(0xFFFFFFFF, 255)]
    let L : Latch := ⟨.had8, 0xFFFFFF80, 0xFFFFFF80, 8, 0⟩
    s.insts[s.sel]?.map Inst.latch = some L ∧ s.mem.wf = true ∧ L.src.toNat % 2 = 0 ∧ L.dst.toNat % 2 = 0 ∧
    8 ≤ L.stride.toNat ∧
    (∀ r < 8, ∀ c < 8, ∀ b < 2, admits s.memAdmit (L.src.toNat + 2 * (r * L.stride.toNat + c) + b) = true ∧
      admits s.memAdmit (L.dst.toNat + 2 * (r * L.stride.toNat + c) + b) = true) ∧ s.ownershipOk s.sel .had8 L :=
  ⟨by decide +kernel, by decide, by decide, by decide, by decide, by decide +kernel,
    (engineConflict_eq_none_iff _ _ _ _).1 (by decide +kernel)⟩

theorem witness_Had16WritesTheCombinedTiles :
    let s := about .had16 0xFFFFFE00 0xFFFFFE00 16 0 [(0xFFFFFFFF, 255)]
    let L : Latch := ⟨.had16, 0xFFFFFE00, 0xFFFFFE00, 16, 0⟩
    s.insts[s.sel]?.map Inst.latch = some L ∧ s.mem.wf = true ∧ L.src.toNat % 2 = 0 ∧ L.dst.toNat % 2 = 0 ∧
    16 ≤ L.stride.toNat ∧
    (∀ r < 16, ∀ c < 16, ∀ b < 2, admits s.memAdmit (L.src.toNat + 2 * (r * L.stride.toNat + c) + b) = true) ∧
    (∀ n < 512, admits s.memAdmit (L.dst.toNat + n) = true) ∧ s.ownershipOk s.sel .had16 L :=
  ⟨by decide +kernel, by decide, by decide, by decide, by decide, by decide +kernel, by decide +kernel,
    (engineConflict_eq_none_iff _ _ _ _).1 (by decide +kernel)⟩

/-- The uniform block 511, the largest that does not wrap (table H8-6). -/
theorem witness_Had16IsTheHalvedWalshTransform :
    ∀ q < 4, ∀ u < 8, ∀ v < 8, |walsh8 (tile (fun _ _ => 511) q) u v| ≤ 32767 := by
  intro q _ u _ v _
  refine (abs_walsh8_le _ 511 (fun r _ c _ => ?_) u v).trans (by decide)
  simp only [tile]
  decide

theorem witness_PhaseOneTilesAreHad8OfQuadrants :
    let L : Latch := ⟨.had16, 0x3000, 0x4000, 20, 0⟩
    let Q : Latch := ⟨.had8, 0x3150, 0x5000, 20, 0⟩
    Q.stride = L.stride ∧ Q.src.toNat = L.src.toNat + 2 * (8 * (3 / 2) * L.stride.toNat + 8 * (3 % 2)) := by decide

theorem witness_memories :
    Memory.wf [(0x10, 1), (0xFFFFFFFF, 0x80)] = true ∧ Memory.wf [(0x10, 0)] = false ∧
    Memory.wf [(0x11, 1), (0x10, 1)] = false := by decide

/-- Every case of a CMD write: busy, illegal, MF2, MF3 at the first stride below the block, MF1 at the first address above
memory, and acceptance at the last stride and address that are right. -/
theorem witness_CmdWriteIsTheCommandLogic :
    (∀ f ∈ [busyShr, flags true true true, withRegs 0x2001 0x2000 8 0, withRegs 0x2000 0x2000 7 0,
        withRegs 0xFFFFFF82 0xFFFFFF80 8 0, withRegs 0xFFFFFF80 0xFFFFFF80 8 0],
      ∀ v ∈ [0x00000003, 0x00000305],
      (hostWrites f 0 v).Inv ∧ (hostWrites f 0 v).mover = .host ∧
        (hostWrites f 0 v).host.head? = some (.write (Config.resetBase) 4 v)) ∧
    (decode (BitVec.ofNat 32 0x00000003) = .ok .had8 ∧ decode (BitVec.ofNat 32 0x00000305) = .error .reservedLeftShift) ∧
    admits State.reset.memAdmit (0xFFFFFF82 + 2 * (7 * 8 + 7)) = false ∧
    admits State.reset.memAdmit (0xFFFFFF80 + 2 * (7 * 8 + 7) + 1) = true := by
  decide +kernel

/-- Every slot of the window, read and written, first and last. -/
theorem witness_RegisterWindowMap :
    (∀ off ∈ [0x00, 0x04, 0x08, 0x0C, 0x10, 0x14, 0x18, 0x1C],
      ((hostReads (withRegs 1 2 3 4) off).Inv ∧ (hostReads (withRegs 1 2 3 4) off).mover = .host ∧
        (hostReads (withRegs 1 2 3 4) off).host.head? = some (.read (Config.resetBase + off) 4)) ∧
      ((hostWrites busyShr off 0xFFFFFFFF).Inv ∧ (hostWrites busyShr off 0xFFFFFFFF).mover = .host ∧
        (hostWrites busyShr off 0xFFFFFFFF).host.head? = some (.write (Config.resetBase + off) 4 0xFFFFFFFF))) := by
  decide +kernel

/-- Accesses that are not aligned or not of 32 bits, the first and the last that touch the window. -/
theorem witness_RegisterWindowMap_mf5 :
    ∀ p ∈ [(Config.resetBase - 1, 2), (Config.resetBase, 2), (Config.resetBase + 31, 4), (Config.resetBase + 2, 4)],
      (∃ a ∈ bytesFrom p.1 p.2, Config.resetBase ≤ a ∧ a < Config.resetBase + 32) ∧ (p.2 ≠ 4 ∨ p.1 % 4 ≠ 0) ∧
      (machine (withRegs 1 2 3 4) [] [.read p.1 p.2] []).mover = .host := by
  decide +kernel

/-- A CMD write that starts a command: the flags and the latch as the statements about acceptance have them. -/
theorem witness_acceptance :
    let s := hostWrites (fun e => flags true false false (withRegs 0 0 0 7 e)) 0 0x000000F5
    s.Inv ∧ (∃ t, step s = .next t ∧
      (t.insts.map Inst.phase == [.busy] && t.insts.map Inst.done == [false] &&
        t.insts.map Inst.latch == [⟨.shr 15, 0, 0, 0, 7⟩]) = true) :=
  ⟨by decide +kernel, after_next (by decide +kernel)⟩

/-- A completion that changes RESULT, sets DONE and clears BUSY. -/
theorem witness_completion :
    let s := about (.shr 0) 0 0 0 0x1234 []
    s.Inv ∧ s.mover = .engine 0 ∧ (∃ t, step s = .next t ∧
      (t.insts.map Inst.phase == [.idle] && t.insts.map Inst.done == [true] &&
        t.insts.map Inst.result == [0x1234]) = true) :=
  ⟨by decide +kernel, by decide +kernel, after_next (by decide +kernel)⟩

/-- A reset of a busy unit. -/
theorem witness_reset :
    let s := machine busyShr [] [] [.reset 0]
    s.Inv ∧ s.mover = .reset 0 ∧ (∃ t, step s = .next t ∧ (t.insts.map Inst.phase == [.idle]) = true) :=
  ⟨by decide +kernel, by decide +kernel, after_next (by decide +kernel)⟩

/-- A reset of an idle unit, with every flag set. -/
theorem witness_reset_idle :
    let s := machine (flags true true true) [(0x10, 1)] [] [.reset 0]
    s.Inv ∧ s.mover = .reset 0 ∧ (∃ t, step s = .next t ∧ (results t == [(0, 0)] && t.mem == [(0x10, 1)]) = true) :=
  ⟨by decide +kernel, by decide +kernel, after_next (by decide +kernel)⟩

/-- Each flag set and each cleared, by its own cause. -/
theorem witness_flags :
    (∃ t, step (hostWrites id 0 0x00000000) = .next t ∧ (t.insts.map Inst.illegal == [true]) = true) ∧
    (∃ t, step (hostWrites busyShr 0 0x00000005) = .next t ∧ (t.insts.map Inst.collide == [true]) = true) ∧
    (∃ t, step (hostWrites (flags true true true) 4 0x00000002) = .next t ∧
      (t.insts.map Inst.done == [false]) = true) ∧
    (∃ t, step (hostWrites (flags true true true) 4 0x00000004) = .next t ∧
      (t.insts.map Inst.illegal == [false]) = true) ∧
    (∃ t, step (hostWrites (flags true true true) 4 0x00000008) = .next t ∧
      (t.insts.map Inst.collide == [false]) = true) :=
  ⟨after_next (by decide +kernel), after_next (by decide +kernel), after_next (by decide +kernel),
    after_next (by decide +kernel), after_next (by decide +kernel)⟩

/-- The three ways a byte of memory changes: a host write, a completion, a reset of the unit that runs a transform. -/
theorem witness_MemoryChangesOnlyWhereItMay :
    ((machine id [] [.write 0x10 2 0x0102] []).Inv ∧
      ∃ t, step (machine id [] [.write 0x10 2 0x0102] []) = .next t ∧ (t.mem == [(0x10, 2), (0x11, 1)]) = true) ∧
    ((about .had8 0x2000 0x3000 8 0 [(0x2000, 3)]).Inv ∧
      ∃ t, step (about .had8 0x2000 0x3000 8 0 [(0x2000, 3)]) = .next t ∧ (t.mem.read 0x307E == 3) = true) ∧
    ((machine (running .had8 0x2000 0x3000 8 0) [] [] [.reset 0]).Inv ∧
      ∃ t, step (machine (running .had8 0x2000 0x3000 8 0) [] [] [.reset 0]) = .next t ∧
        (results t == [(0, 0)]) = true) :=
  ⟨⟨by decide +kernel, after_next (by decide +kernel)⟩, ⟨by decide +kernel, after_next (by decide +kernel)⟩,
    ⟨by decide +kernel, after_next (by decide +kernel)⟩⟩

/-- A host step that goes on beside a running command: it writes the byte before the input and the one after the output. -/
theorem witness_RegionsAreStableWhileBusy :
    let s := machine (running .had8 0x2000 0x3000 8 0) [] [.write 0x1FFF 1 5] [.host]
    s.Inv ∧ s.mover = .host ∧ 0x2000 ∈ inputBytes .had8 ⟨.had8, 0x2000, 0x3000, 8, 0⟩ ∧
    0x307F ∈ outputBytes .had8 ⟨.had8, 0x2000, 0x3000, 8, 0⟩ ∧ (∃ t, step s = .next t ∧ (t.mem == [(0x1FFF, 5)]) = true) :=
  ⟨by decide +kernel, by decide +kernel, by decide +kernel, by decide +kernel, after_next (by decide +kernel)⟩

/-! ### Two units -/

/-- A second unit at 0xE0000000 with memory between and around the windows; the first runs `i`, the second `j`. -/
def pair (i j : Instr) (src0 dst0 src1 dst1 : Word) (host : List HostStep) (turns : List Agent) : State :=
  { State.resetWith [0xF0000000, 0xE0000000] [⟨0, 0xE0000000⟩] with
    insts := [running i src0 dst0 8 0 (Inst.reset 0xF0000000), running j src1 dst1 8 0 (Inst.reset 0xE0000000)]
    host := host, turns := turns }

/-- Unit 0 would write the last byte of unit 1's input region; and one that keeps just clear of both its regions. -/
theorem witness_InterferenceIsAFault_engines :
    ((pair .had8 .avg8 0x2000 0x3000 0x307F 0 [] [.engine 0]).Inv ∧
      (pair .had8 .avg8 0x2000 0x3000 0x307F 0 [] [.engine 0]).mover = .engine 0 ∧
      ¬ (pair .had8 .avg8 0x2000 0x3000 0x307F 0 [] [.engine 0]).ownershipOk 0 .had8 ⟨.had8, 0x2000, 0x3000, 8, 0⟩) ∧
    ((pair .had8 .had8 0x2000 0x3000 0x3080 0x3080 [] [.engine 0]).Inv ∧
      (pair .had8 .had8 0x2000 0x3000 0x3080 0x3080 [] [.engine 0]).ownershipOk 0 .had8 ⟨.had8, 0x2000, 0x3000, 8, 0⟩) := by
  refine ⟨⟨by decide +kernel, by decide +kernel, fun h => ?_⟩, by decide +kernel, ?_⟩
  · have := (engineConflict_eq_none_iff _ _ _ _).2 h
    revert this
    decide +kernel
  · exact (engineConflict_eq_none_iff _ _ _ _).1 (by decide +kernel)

/-- An access of the last byte of memory, owned by a running command, and of one byte beyond it, in no window. -/
theorem witness_InterferenceIsAFault_straddling :
    (∀ h ∈ [HostStep.write 0xFFFFFFFF 2 9, .read 0xFFFFFFFF 2],
      (machine (running .had8 0x2000 0xFFFFFF80 8 0) [] [h] [.host]).Inv ∧
      (machine (running .had8 0x2000 0xFFFFFF80 8 0) [] [h] [.host]).mover = .host) ∧
    0xFFFFFFFF ∈ outputBytes .had8 ⟨.had8, 0x2000, 0xFFFFFF80, 8, 0⟩ ∧ admits State.reset.memAdmit 0x100000000 = false ∧
    (∀ a ∈ bytesFrom 0xFFFFFFFF 2, (Inst.reset Config.resetBase).window.holds a = false) := by
  decide +kernel

/-- The host accesses of the interference statement: into the last byte of the output, and next to it. -/
theorem witness_InterferenceIsAFault_host :
    (∀ p ∈ [(0x307F, 1), (0x3080, 4)], ∀ a ∈ bytesFrom p.1 p.2, admits State.reset.memAdmit a = true) ∧
    (∀ h ∈ [HostStep.write 0x307F 1 9, .read 0x307F 1, .write 0x3080 4 9, .read 0x3080 4],
      (machine (running .had8 0x2000 0x3000 8 0) [] [h] [.host]).Inv ∧
      (machine (running .had8 0x2000 0x3000 8 0) [] [h] [.host]).mover = .host) ∧
    0x307F ∈ outputBytes .had8 ⟨.had8, 0x2000, 0x3000, 8, 0⟩ ∧
    (∀ a ∈ bytesFrom 0x3080 4, a ∉ inputBytes .had8 ⟨.had8, 0x2000, 0x3000, 8, 0⟩ ∧
      a ∉ outputBytes .had8 ⟨.had8, 0x2000, 0x3000, 8, 0⟩) := by
  decide +kernel

/-- An access that starts on the last byte of memory and leaves it, touches no window, and is owned by no command: the
unit of `machine id` is idle. -/
theorem witness_UnbackedHostAccessIsRefused :
    let s := machine id [] [.read 0xFFFFFFFF 2] []
    (∃ a ∈ bytesFrom 0xFFFFFFFF 2, admits s.memAdmit a = false) ∧
    (∀ e ∈ s.insts, ∀ a ∈ bytesFrom 0xFFFFFFFF 2, e.window.holds a = false) ∧ s.mover = .host := by
  decide +kernel

theorem witness_WaitReadsStatusUntilIdle :
    ((machine busyShr [] [.wait Config.resetBase] [.host]).Inv ∧
      (machine busyShr [] [.wait Config.resetBase] [.host]).hostNext (.wait Config.resetBase)) ∧
    ((machine (flags true false false) [] [.wait Config.resetBase] []).Inv ∧
      (machine (flags true false false) [] [.wait Config.resetBase] []).hostNext (.wait Config.resetBase)) :=
  ⟨⟨by decide +kernel, by decide +kernel, by decide +kernel⟩, ⟨by decide +kernel, by decide +kernel, by decide +kernel⟩⟩

theorem witness_EngineStepRunsTheLatchedCommand :
    (machine busyShr [] [] [.engine 0]).mover = .engine 0 ∧ (machine id [] [] [.engine 0]).mover = .engine 0 := by
  decide +kernel

theorem witness_PlacedWordIsRunNext : decodeTableWord 32 0x00000004 = some .had16 ∧
    decodeTableWord 32 0x000006F5 = some (.srar 15) ∧ State.reset.insts[State.reset.sel]? = some (Inst.reset 0xF0000000) :=
  ⟨by decide, by decide, rfl⟩

/-- For RegistersMayBeRewrittenWhileBusy and OverflowIsNoFault: completions that go on, and one that stops. -/
theorem witness_exec_outcomes :
    (∃ t, exec (.srar 1) (about (.srar 1) 0 0 0 0xFFFD []) = .next t ∧ (results t == [(0xFFFF, 2)]) = true) ∧
    (∃ t, exec .had8 (about .had8 0x2000 0x2000 8 0 [(0x2001, 0x80)]) = .next t ∧ (results t == [(0, 2)]) = true) ∧
    stops (exec .avg4 (about .avg4 0 0 3 0 [])) (.mf3 ⟨.avg4, 0, 0, 3, 0⟩) = true :=
  ⟨after_next (by decide +kernel), after_next (by decide +kernel), by decide +kernel⟩

/-- The three latches of CompletionStopsOnBrokenPreconditions, each at the boundary of its clause. -/
theorem witness_CompletionStopsOnBrokenPreconditions :
    stops (exec .had16 (about .had16 0x3000 0x4001 0 0 [])) (.mf2 ⟨.had16, 0x3000, 0x4001, 0, 0⟩) = true ∧
    stops (exec .had8 (about .had8 0x3000 0x4000 7 0 [])) (.mf3 ⟨.had8, 0x3000, 0x4000, 7, 0⟩) = true ∧
    stops (exec .avg8 (about .avg8 0xFFFFFFC1 0 8 0 [])) (.mf1 ⟨.avg8, 0xFFFFFFC1, 0, 8, 0⟩) = true := by
  decide +kernel

/-- RUN of a transform and of a shift on an idle machine. -/
theorem witness_RunCompletesAndWaitEnds :
    let s := machine (withRegs 0x3000 0x4000 16 7) [(0x3000, 2)] (hostRun Config.resetBase .had16 ++ [.read 0x4000 2]) []
    s.Inv ∧ s.turns = [] ∧ (∀ f ∈ s.insts, f.phase = .idle) ∧
    preFault s.memAdmit .had16 ⟨.had16, 0x3000, 0x4000, 16, 7⟩ = none ∧
    preFault s.memAdmit (.shl 15) ⟨.shl 15, 0x3000, 0x4000, 16, 7⟩ = none :=
  ⟨by decide +kernel, by decide +kernel, by decide +kernel, by decide +kernel, by decide +kernel⟩

/-- A busy unit whose engine's turn comes late: two turns of the other agents first. -/
theorem witness_BusyUnitCompletesInBoundedSteps :
    let s := machine busyShr [] [] [.host, .reset 1]
    s.Inv ∧ s.insts.map Inst.phase = [.busy] := by decide +kernel

/-- Two units, one running beside the other: the state that a step of StepTouchesAtMostOneUnit changes in one unit. -/
theorem witness_StepTouchesAtMostOneUnit :
    ∃ t, step (pair (.shr 0) .had8 0 0 0x2000 0x3000 [] [.engine 0]) = .next t ∧
      (t.insts.map Inst.phase == [.idle, .busy]) = true := after_next (by decide +kernel)

end Sys2Proof.Tests
end

section
/-! Family 10_state: the register window, the command logic, and what one step can do to a unit's flags, latch and
RESULT. -/

namespace Sys2Proof.Machine

open Sys2Proof

/-! ## Registers and STATUS -/

/-- Putting back the unit that stands there changes nothing. -/
theorem setUnit_self (s : State) (k : Nat) (e : Inst) (hk : s.insts[k]? = some e) : s.setUnit k e = s := by
  obtain ⟨hlt, rfl⟩ := List.getElem?_eq_some_iff.1 hk
  simp [State.setUnit]

/-- The low half of a 32-bit number, as STRIDE and OPERAND keep it (10_state R38, R39). -/
theorem extractLsb'_ofNat_low (v : Nat) : (BitVec.ofNat 32 v).extractLsb' 0 16 = BitVec.ofNat 16 v := by
  apply BitVec.eq_of_toNat_eq
  simp only [BitVec.extractLsb'_toNat, BitVec.toNat_ofNat, Nat.shiftRight_zero]
  omega

/-- A 16-bit register reads as its own value (10_state R38 to R40). -/
theorem toNat_zeroExtend_half (x : Half) : (x.zeroExtend 32).toNat = x.toNat :=
  BitVec.toNat_setWidth_of_le (by decide)

/-- A low bit of a 32-bit number. -/
theorem getLsbD_ofNat_low (v b : Nat) (hb : b < 32) : (BitVec.ofNat 32 v).getLsbD b = v.testBit b := by
  rw [BitVec.getLsbD_ofNat, decide_eq_true hb, Bool.true_and]

/-- STATUS as a number, from its four flags (10_state R35). -/
theorem statusWord_toNat (e : Inst) : e.statusWord.toNat =
    (if e.phase = .busy then 1 else 0) + (if e.done then 2 else 0) + (if e.illegal then 4 else 0) +
      (if e.collide then 8 else 0) := by
  have flags : ∀ b d i c : Bool,
      ((0 : BitVec 28) ++ BitVec.ofBool c ++ BitVec.ofBool i ++ BitVec.ofBool d ++ BitVec.ofBool b).toNat =
        (if b then 1 else 0) + (if d then 2 else 0) + (if i then 4 else 0) + (if c then 8 else 0) := by decide
  simp only [← busy_iff]
  exact flags e.busy e.done e.illegal e.collide

/-- All flags are 0 after reset (10_state R52). -/
theorem statusWord_reset (b : Nat) : (Inst.reset b).statusWord = 0 :=
  BitVec.eq_of_toNat_eq (statusWord_toNat (Inst.reset b))

/-- Every slot reads 0 after reset (10_state R52). -/
theorem readSlot_reset (b : Nat) (slot : Slot) : (Inst.reset b).readSlot slot = 0 := by
  cases slot with
  | status => exact statusWord_reset b
  | cmd | src | dst | stride | operand | result | reserved => rfl

/-- Bit 0 of STATUS is BUSY (10_state R42). -/
theorem statusWord_bit_zero (e : Inst) : e.statusWord.getLsbD 0 = e.busy := by
  have low : ∀ b d i c : Bool,
      ((0 : BitVec 28) ++ BitVec.ofBool c ++ BitVec.ofBool i ++ BitVec.ofBool d ++ BitVec.ofBool b).getLsbD 0 = b := by
    decide
  exact low e.busy e.done e.illegal e.collide

/-! ## The flags after a write of a slot other than CMD -/

theorem writeSlot_done_eq (e : Inst) (v : Word) (x : Slot) :
    (e.writeSlot v x).done = (e.done && !(decide (x = .status) && v.getLsbD 1)) := by
  cases x <;> simp [Inst.writeSlot]

theorem writeSlot_illegal_eq (e : Inst) (v : Word) (x : Slot) :
    (e.writeSlot v x).illegal = (e.illegal && !(decide (x = .status) && v.getLsbD 2)) := by
  cases x <;> simp [Inst.writeSlot]

theorem writeSlot_collide_eq (e : Inst) (v : Word) (x : Slot) :
    (e.writeSlot v x).collide = (e.collide && !(decide (x = .status) && v.getLsbD 3)) := by
  cases x <;> simp [Inst.writeSlot]

/-! ## Which precondition fails first (60_exceptions R224) -/

theorem alignedOk_eq_false_iff (i : Instr) (L : Latch) :
    alignedOk i L = false ↔ (i = .had8 ∨ i = .had16) ∧ (L.src.toNat % 2 = 1 ∨ L.dst.toNat % 2 = 1) := by
  have heven : needsEven i = true ↔ i = .had8 ∨ i = .had16 := by cases i <;> simp [needsEven]
  simp only [alignedOk, Bool.or_eq_false_iff, Bool.not_eq_false', heven, Bool.and_eq_false_iff, decide_eq_false_iff_not,
    Nat.mod_two_ne_zero]

theorem strideOk_eq_false_iff (i : Instr) (L : Latch) : strideOk i L = false ↔ L.stride.toNat < minStride i := by
  simp [strideOk]

theorem boundsOk_eq_false_iff (memAdmit : List Region) (i : Instr) (L : Latch) :
    boundsOk memAdmit i L = false ↔ ∃ a, (a ∈ inputBytes i L ∨ a ∈ outputBytes i L) ∧ admits memAdmit a = false := by
  rw [← Bool.not_eq_true, boundsOk_iff]
  push Not
  simp only [ne_eq, Bool.not_eq_true]

theorem preFault_misaligned (memAdmit : List Region) (i : Instr) (L : Latch) (h : alignedOk i L = false) :
    preFault memAdmit i L = some (.mf2 L) := by
  simp [preFault, h]

theorem preFault_narrow (memAdmit : List Region) (i : Instr) (L : Latch) (ha : alignedOk i L = true)
    (h : strideOk i L = false) : preFault memAdmit i L = some (.mf3 L) := by
  simp [preFault, ha, h]

theorem preFault_outside (memAdmit : List Region) (i : Instr) (L : Latch) (ha : alignedOk i L = true)
    (hs : strideOk i L = true) (h : boundsOk memAdmit i L = false) : preFault memAdmit i L = some (.mf1 L) := by
  simp [preFault, ha, hs, h]

/-! ## The command logic, case by case (10_state R45) -/

theorem accept_of_preFault (s : State) (k : Nat) (e : Inst) (i : Instr) (f : Fault)
    (h : preFault s.memAdmit i (e.latchFor i) = some f) : accept s k e i = .fault f := by
  simp [accept, h]

theorem accept_of_ok (s : State) (k : Nat) (e : Inst) (i : Instr) (h : preFault s.memAdmit i (e.latchFor i) = none) :
    accept s k e i = .next (s.setUnit k { e with latch := e.latchFor i, done := false, phase := .busy }) := by
  simp [accept, h, Inst.toBusy]

theorem writeCmd_busy (s : State) (k : Nat) (e : Inst) (w : Word) (h : e.phase = .busy) :
    writeCmd s k e w = .next (s.setUnit k { e with collide := true }) := by
  simp [writeCmd, (busy_iff e).2 h]

theorem writeCmd_illegal (s : State) (k : Nat) (e : Inst) (w : Word) (x : Illegal) (h : e.phase = .idle)
    (hd : decode w = .error x) : writeCmd s k e w = .next (s.setUnit k { e with illegal := true }) := by
  simp [writeCmd, (not_busy_iff e).2 h, hd]

theorem writeCmd_legal (s : State) (k : Nat) (e : Inst) (w : Word) (i : Instr) (h : e.phase = .idle)
    (hd : decode w = .ok i) : writeCmd s k e w = accept s k e i := by
  simp [writeCmd, (not_busy_iff e).2 h, hd]

/-- A host write of CMD goes to the command logic. -/
theorem step_cmd_write (s : State) (k : Nat) (e : Inst) (v : Nat) (hi : s.Inv) (hk : s.insts[k]? = some e)
    (h : s.hostNext (.write e.base 4 v)) : step s = writeCmd s.hostUsed k e (BitVec.ofNat 32 v) :=
  step_window_write s k e .cmd v hi hk h

/-! ## Accesses that no window allows (10_state R33) -/

/-- An access of `n` bytes that touches a window finds one. -/
theorem windowAt_of_touch (s : State) (e : Inst) (he : e ∈ s.insts) (addr n : Nat)
    (h : ∃ a, addr ≤ a ∧ a < addr + n ∧ e.base ≤ a ∧ a < e.base + 32) : ∃ p, s.windowAt (bytesFrom addr n) = some p := by
  obtain ⟨a, h1, h2, h3⟩ := h
  refine Option.ne_none_iff_exists'.1 fun hnone => ?_
  have := (windowAt_none_iff s _).1 hnone e he a ((mem_bytesFrom _ _ _).2 ⟨h1, h2⟩)
  simp [(window_holds_iff e a).2 h3] at this

theorem aligned32_eq_false (a : Access) (h : a.bytes ≠ 4 ∨ a.addr % 4 ≠ 0) : a.aligned32 = false := by
  simpa [Access.aligned32, ← not_or, imp_iff_not_or] using h

theorem hostLoad_bad_access (s : State) (e : Inst) (he : e ∈ s.insts) (addr n : Nat)
    (ht : ∃ a, addr ≤ a ∧ a < addr + n ∧ e.base ≤ a ∧ a < e.base + 32) (hbad : n ≠ 4 ∨ addr % 4 ≠ 0) :
    hostLoad s addr n = .fault (.mf5 ⟨.host, .read, addr, n⟩) := by
  obtain ⟨p, hp⟩ := windowAt_of_touch s e he addr n ht
  simp [hostLoad, Access.byteList, hp, aligned32_eq_false ⟨_, _, addr, n⟩ hbad]

theorem hostStore_bad_access (s : State) (e : Inst) (he : e ∈ s.insts) (addr n v : Nat)
    (ht : ∃ a, addr ≤ a ∧ a < addr + n ∧ e.base ≤ a ∧ a < e.base + 32) (hbad : n ≠ 4 ∨ addr % 4 ≠ 0) :
    hostStore s addr n v = .fault (.mf5 ⟨.host, .write, addr, n⟩) := by
  obtain ⟨p, hp⟩ := windowAt_of_touch s e he addr n ht
  simp [hostStore, Access.byteList, hp, aligned32_eq_false ⟨_, _, addr, n⟩ hbad]

/-! ## The engine's turn (10_state R47) -/

/-- The engine's turn on a busy unit. -/
theorem step_engine_busy (s : State) (k : Nat) (e : Inst) (hm : s.mover = .engine k) (hk : s.insts[k]? = some e)
    (hb : e.phase = .busy) : step s = exec e.latch.op { s.turnUsed with sel := k } := by
  have hk' : s.turnUsed.insts[k]? = some e := hk
  simp [step_engine s k hm, engineTurn, hk', (busy_iff e).2 hb]

/-- The engine's turn on an idle unit (log 18). -/
theorem step_engine_idle (s : State) (k : Nat) (e : Inst) (hm : s.mover = .engine k) (hk : s.insts[k]? = some e)
    (hidle : e.phase = .idle) : step s = .next s.turnUsed := by
  have hk' : s.turnUsed.insts[k]? = some e := hk
  simp [step_engine s k hm, engineTurn, hk', (not_busy_iff e).2 hidle]

/-! ## The window, the command logic and reset -/

/-- Settles O28: the write reaches the command logic, whose cases are the precondition check's. -/
theorem cmdWriteIsTheCommandLogic : Obligations.CmdWriteIsTheCommandLogic := by
  intro s k e v hi hk h
  rw [step_cmd_write s k e v hi hk h]
  refine ⟨writeCmd_busy _ _ _ _, fun hidle x hd => writeCmd_illegal _ _ _ _ x hidle hd, ?_⟩
  intro hidle i L hd hL
  replace hL : L = e.latchFor i := hL
  subst hL
  rw [writeCmd_legal _ _ _ _ i hidle hd]
  intro odd narrow outside
  have hodd : odd ↔ alignedOk i (e.latchFor i) = false := (alignedOk_eq_false_iff i (e.latchFor i)).symm
  have hnarrow : narrow ↔ strideOk i (e.latchFor i) = false := (strideOk_eq_false_iff i (e.latchFor i)).symm
  have houtside : outside ↔ boundsOk s.memAdmit i (e.latchFor i) = false :=
    (boundsOk_eq_false_iff s.memAdmit i (e.latchFor i)).symm
  simp only [hodd, hnarrow, houtside, Bool.not_eq_false]
  refine ⟨fun ha => ?_, fun ha hs => ?_, fun ha hs hb => ?_, fun ha hs hb => ?_⟩
  · exact accept_of_preFault _ _ _ _ _ (preFault_misaligned _ _ _ ha)
  · exact accept_of_preFault _ _ _ _ _ (preFault_narrow _ _ _ ha hs)
  · exact accept_of_preFault _ _ _ _ _ (preFault_outside _ _ _ ha hs hb)
  · exact accept_of_ok _ _ _ _ ((preFault_eq_none_iff _ _ _).2 ⟨ha, hs, hb⟩)

/-- Settles O29: STATUS is one slot of the window, read and written as such. -/
theorem statusFieldsAndWriteOneToClear : Obligations.StatusFieldsAndWriteOneToClear := by
  refine ⟨statusWord_toNat, fun s k e v hi hk => ⟨fun h => ?_, fun h => ?_⟩⟩
  · exact step_window_read s k e .status hi hk h
  · rw [step_window_write s k e .status v hi hk h]
    simp only [writeWindow, Inst.writeSlot, Inst.writeStatus, getLsbD_ofNat_low v 1 (by decide),
      getLsbD_ofNat_low v 2 (by decide), getLsbD_ofNat_low v 3 (by decide)]
    rfl


/-- Settles O30: slot by slot for aligned accesses, and by the window that is found for the others. -/
theorem registerWindowMap : Obligations.RegisterWindowMap := by
  refine ⟨fun s k e hi hk => ⟨?_, fun v => ?_, ?_⟩, readSlot_reset⟩
  · have read := fun x => step_window_read s k e x hi hk
    intro off value hmem h
    simp only [List.mem_cons, Prod.mk.injEq, List.not_mem_nil, or_false] at hmem
    rcases hmem with ⟨rfl, rfl⟩ | ⟨rfl, rfl⟩ | ⟨rfl, rfl⟩ | ⟨rfl, rfl⟩ | ⟨rfl, rfl⟩ | ⟨rfl, rfl⟩ | ⟨rfl, rfl⟩ | ⟨rfl, rfl⟩
    · exact read .cmd h
    · exact read .status h
    · exact read .src h
    · exact read .dst h
    · rw [read .stride h, ← toNat_zeroExtend_half]
      rfl
    · rw [read .operand h, ← toNat_zeroExtend_half]
      rfl
    · rw [read .result h, ← toNat_zeroExtend_half]
      rfl
    · exact read .reserved h
  · have write := fun x => step_window_write s k e x v hi hk
    have keep : s.hostUsed.setUnit k e = s.hostUsed := setUnit_self s.hostUsed k e hk
    refine ⟨write .src, write .dst, fun h => ?_, fun h => ?_, ?_⟩
    · rw [write .stride h, ← extractLsb'_ofNat_low]
      rfl
    · rw [write .operand h, ← extractLsb'_ofNat_low]
      rfl
    · rintro (h | h)
      · rw [write .result h]
        exact congrArg _ keep
      · rw [write .reserved h]
        exact congrArg _ keep
  · intro addr n v ht hbad
    have he : e ∈ s.hostUsed.insts := List.mem_of_getElem? hk
    refine ⟨fun h => ?_, fun h => ?_⟩
    · rw [step_host_read s addr n h, hostLoad_bad_access _ e he addr n ht hbad]
    · rw [step_host_write s addr n v h, hostStore_bad_access _ e he addr n v ht hbad]

/-- Settles O42: a busy unit's turn and an idle one's. -/
theorem engineStepRunsTheLatchedCommand : Obligations.EngineStepRunsTheLatchedCommand :=
  fun s k e hm hk => ⟨step_engine_busy s k e hm hk, step_engine_idle s k e hm hk⟩

/-- Settles O49: with STRIDE 0 the stride check fails for every block command, after the alignment check. -/
theorem resetValues : Obligations.ResetValues := by
  refine ⟨fun bases memAdmit e he => ?_, fun s k e i h0 hblock => ?_, _, _, rfl⟩
  · obtain ⟨b, -, rfl⟩ := List.mem_map.1 he
    exact ⟨rfl, statusWord_reset b, rfl, rfl, rfl, rfl, rfl, rfl, rfl⟩
  · have hstride : strideOk i (e.latchFor i) = false := by
      rw [strideOk_eq_false_iff]
      rcases hblock with rfl | rfl | rfl | rfl <;> simp [Inst.latchFor, h0, minStride]
    cases ha : alignedOk i (e.latchFor i) with
    | true => exact .inl (accept_of_preFault _ _ _ _ _ (preFault_narrow _ _ _ ha hstride))
    | false =>
      obtain ⟨hi, hodd⟩ := (alignedOk_eq_false_iff _ _).1 ha
      exact .inr ⟨hi, hodd, accept_of_preFault _ _ _ _ _ (preFault_misaligned _ _ _ ha)⟩

/-- Settles O51: every clause is decided on the one concrete platform. -/
theorem resetMeetsTheInvariant : Obligations.ResetMeetsTheInvariant := by
  unfold Obligations.ResetMeetsTheInvariant
  decide

/-! ## A write of one slot, flag by flag (10_state R35, R42 to R46) -/

namespace WindowWrite

variable {s : State} {e f : Inst} {x : Slot} {v : Word}

/-- An idle unit becomes busy exactly at a CMD write of a legal word. -/
theorem busy_iff_accepts (w : WindowWrite s e x v f) (h : e.phase = .idle) :
    f.phase = .busy ↔ x = .cmd ∧ ∃ i, decode v = .ok i := by
  cases w with
  | collide _ hb => simp [h] at hb
  | illegal y _ _ hd => simp [h, hd]
  | accepted i hx _ hd _ => simp [hx, hd]
  | slot hx => simp [h, hx]

/-- A window write never ends a command. -/
theorem busy_of_busy (w : WindowWrite s e x v f) (h : e.phase = .busy) : f.phase = .busy := by
  cases w with
  | collide _ _ => exact h
  | illegal y _ hidle _ => exact h
  | accepted i _ hidle _ _ => rfl
  | slot hx => simpa using h

/-- No write sets DONE. -/
theorem done_of_not_done (w : WindowWrite s e x v f) (h : e.done = false) : f.done = false := by
  cases w with
  | collide _ _ => exact h
  | illegal y _ _ _ => exact h
  | accepted i _ _ _ _ => rfl
  | slot hx => exact writeSlot_done e v x h

/-- DONE is cleared by acceptance and by a STATUS write with bit 1 set. -/
theorem done_cleared_iff (w : WindowWrite s e x v f) (h : e.done = true) :
    f.done = false ↔ (e.phase = .idle ∧ f.phase = .busy) ∨ (x = .status ∧ v.getLsbD 1 = true) := by
  cases w with
  | collide hx hb => simp [h, hx, hb]
  | illegal y hx hidle _ => simp [h, hx, hidle]
  | accepted i hx hidle _ _ => simp [hidle]
  | slot hx => simp +contextual [writeSlot_done_eq, h]

/-- ILLEGAL is set by a CMD write of an illegal word while idle. -/
theorem illegal_set_iff (w : WindowWrite s e x v f) (h : e.illegal = false) :
    f.illegal = true ↔ e.phase = .idle ∧ x = .cmd ∧ ∃ y, decode v = .error y := by
  cases w with
  | collide hx hb => simp [h, hb]
  | illegal y hx hidle hd => simp [hx, hidle, hd]
  | accepted i hx hidle hd _ => simp [h, hd]
  | slot hx => simp [writeSlot_illegal_eq, h, hx]

/-- ILLEGAL is cleared by a STATUS write with bit 2 set. -/
theorem illegal_cleared_iff (w : WindowWrite s e x v f) (h : e.illegal = true) :
    f.illegal = false ↔ x = .status ∧ v.getLsbD 2 = true := by
  cases w with
  | collide hx _ => simp [h, hx]
  | illegal y hx _ _ => simp [hx]
  | accepted i hx _ _ _ => simp [h, hx]
  | slot hx => simp [writeSlot_illegal_eq, h]

/-- COLLIDE is set by a CMD write while busy. -/
theorem collide_set_iff (w : WindowWrite s e x v f) (h : e.collide = false) :
    f.collide = true ↔ e.phase = .busy ∧ x = .cmd := by
  cases w with
  | collide hx hb => simp [hx, hb]
  | illegal y _ hidle _ => simp [h, hidle]
  | accepted i _ hidle _ _ => simp [h, hidle]
  | slot hx => simp [writeSlot_collide_eq, h, hx]

/-- COLLIDE is cleared by a STATUS write with bit 3 set. -/
theorem collide_cleared_iff (w : WindowWrite s e x v f) (h : e.collide = true) :
    f.collide = false ↔ x = .status ∧ v.getLsbD 3 = true := by
  cases w with
  | collide hx _ => simp [hx]
  | illegal y hx _ _ => simp [h, hx]
  | accepted i hx _ _ _ => simp [h, hx]
  | slot hx => simp [writeSlot_collide_eq, h]

/-- Only acceptance loads the latch. -/
theorem latch_of_ne (w : WindowWrite s e x v f) (h : f.latch ≠ e.latch) :
    x = .cmd ∧ e.phase = .idle ∧ f.phase = .busy ∧ ∃ i, decode v = .ok i ∧ f.latch = e.latchFor i := by
  cases w with
  | collide _ _ => exact absurd rfl h
  | illegal y _ _ _ => exact absurd rfl h
  | accepted i hx hidle hd _ => exact ⟨hx, hidle, rfl, i, hd, rfl⟩
  | slot hx => exact absurd (writeSlot_latch e v x) h

/-- No write changes RESULT. -/
theorem result_eq (w : WindowWrite s e x v f) : f.result = e.result := by
  cases w with
  | collide _ _ => rfl
  | illegal y _ _ _ => rfl
  | accepted i _ _ _ _ => rfl
  | slot hx => exact writeSlot_result e v x

end WindowWrite

/-! ## A completion, flag by flag (10_state R47) -/

namespace CompletedAs

variable {i : Instr} {s t : State} {e f : Inst}

theorem phase_eq (h : CompletedAs i s t e f) : f.phase = .idle := by rw [h.unit]
theorem done_eq (h : CompletedAs i s t e f) : f.done = true := by rw [h.unit]
theorem illegal_eq (h : CompletedAs i s t e f) : f.illegal = e.illegal := by rw [h.unit]
theorem collide_eq (h : CompletedAs i s t e f) : f.collide = e.collide := by rw [h.unit]
theorem latch_eq (h : CompletedAs i s t e f) : f.latch = e.latch := by rw [h.unit]

end CompletedAs

/-! ## What a step does to one unit, and when -/

theorem slot_offset_inj {x y : Slot} (h : x.offset = y.offset) : x = y := by
  rw [← slotAt_of_offset x, h, slotAt_of_offset]

/-- The host's next step is one write: where it goes and what it writes is settled. -/
theorem exists_hostNext_write_iff {s : State} {b v : Nat} {x : Slot} (h : s.hostNext (.write (b + x.offset) 4 v))
    (y : Slot) (p : Nat → Prop) : (∃ u, s.hostNext (.write (b + y.offset) 4 u) ∧ p u) ↔ x = y ∧ p v := by
  constructor
  · rintro ⟨u, hu, hp⟩
    have heq := h.2.symm.trans hu.2
    simp only [Option.some.injEq, HostStep.write.injEq, Nat.add_left_cancel_iff, true_and] at heq
    obtain ⟨hoff, rfl⟩ := heq
    exact ⟨slot_offset_inj hoff, hp⟩
  · rintro ⟨rfl, hp⟩
    exact ⟨v, h, hp⟩

theorem getElem?_set_of_some {l : List Inst} {k : Nat} {e f : Inst} (g : Inst) (hk : l[k]? = some e)
    (hf : (l.set k g)[k]? = some f) : g = f := by
  rw [List.getElem?_set_self (List.getElem?_eq_some_iff.1 hk).1] at hf
  exact Option.some.inj hf

theorem WindowWrite.of_hostUsed {s : State} {e f : Inst} {x : Slot} {v : Word} (w : WindowWrite s.hostUsed e x v f) :
    WindowWrite s e x v f := by
  cases w with
  | collide hx hb => exact .collide hx hb
  | illegal y hx hidle hd => exact .illegal y hx hidle hd
  | accepted i hx hidle hd hp => exact .accepted i hx hidle hd hp
  | slot hx => exact .slot hx

theorem exists_cmd_write_iff {s : State} {b v : Nat} {x : Slot} (h : s.hostNext (.write (b + x.offset) 4 v))
    (p : Nat → Prop) : (∃ u, s.hostNext (.write b 4 u) ∧ p u) ↔ x = .cmd ∧ p v :=
  exists_hostNext_write_iff h .cmd p

theorem exists_status_write_iff {s : State} {b v : Nat} {x : Slot} (h : s.hostNext (.write (b + x.offset) 4 v))
    (p : Nat → Prop) : (∃ u, s.hostNext (.write (b + 4) 4 u) ∧ p u) ↔ x = .status ∧ p v :=
  exists_hostNext_write_iff h .status p

section
variable {s t : State} {k : Nat} {e f : Inst} (h : step s = .next t) (hk : s.insts[k]? = some e)
  (hf : t.insts[k]? = some f)
include h hk hf

theorem step_unit_window (hi : s.Inv) {x : Slot} {v : Nat} (hw : s.hostNext (.write (e.base + x.offset) 4 v)) :
    WindowWrite s e x (BitVec.ofNat 32 v) f := by
  rw [step_window_write s k e x v hi hk hw] at h
  obtain ⟨g, w, rfl⟩ := writeWindow_next _ _ _ _ _ _ h
  obtain rfl := getElem?_set_of_some g hk hf
  exact w.of_hostUsed

theorem step_unit_completion (hm : s.mover = .engine k) (hb : e.phase = .busy) :
    CompletedAs e.latch.op { s.turnUsed with sel := k } t e f := by
  rw [step_engine_busy s k e hm hk hb] at h
  obtain ⟨d, g, hd, -, -, hc⟩ := exec_next _ _ _ h
  obtain rfl : d = e := Option.some.inj (hd.symm.trans hk)
  have hins : t.insts = s.insts.set k g := congrArg State.insts hc.state
  obtain rfl := getElem?_set_of_some g hk (hins ▸ hf)
  exact hc

theorem step_unit_reset (hm : s.mover = .reset k) : f = Inst.reset e.base := by
  rw [step_reset s k hm] at h
  injection h with h
  have hins : t.insts = s.insts.set k (Inst.reset e.base) := by
    rcases resetUnit_cases s.turnUsed k with ⟨hn, -⟩ | ⟨d, hd, hc⟩
    · exact absurd (hn.symm.trans hk) (by simp)
    · obtain rfl : d = e := Option.some.inj (hd.symm.trans hk)
      rcases hc with ⟨-, hc⟩ | ⟨-, hc⟩ <;> rw [← h, hc] <;> rfl
  exact (getElem?_set_of_some _ hk (hins ▸ hf)).symm

end

/-- What a step does to the unit at place k, as `UnitDid`, but each case with what it excludes. -/
inductive UnitStep (s t : State) (k : Nat) (e f : Inst) : Prop where
  | same : (∀ v, ¬ s.hostNext (.write e.base 4 v)) → (∀ v, ¬ s.hostNext (.write (e.base + 4) 4 v)) →
      ¬ (s.mover = .engine k ∧ e.phase = .busy) → s.mover ≠ .reset k → f = e → UnitStep s t k e f
  | window (x : Slot) (v : Nat) : s.hostNext (.write (e.base + x.offset) 4 v) →
      WindowWrite s e x (BitVec.ofNat 32 v) f → UnitStep s t k e f
  | completion : s.mover = .engine k → e.phase = .busy → CompletedAs e.latch.op { s.turnUsed with sel := k } t e f →
      UnitStep s t k e f
  | reset : s.mover = .reset k → f = Inst.reset e.base → UnitStep s t k e f

theorem step_unit_exclusive {s t : State} {k : Nat} {e f : Inst} (hi : s.Inv) (h : step s = .next t)
    (hk : s.insts[k]? = some e) (hf : t.insts[k]? = some f) : UnitStep s t k e f := by
  by_cases hw : ∃ x v, s.hostNext (.write (e.base + Slot.offset x) 4 v)
  · obtain ⟨x, v, hw⟩ := hw
    exact .window x v hw (step_unit_window h hk hf hi hw)
  by_cases hc : s.mover = .engine k ∧ e.phase = .busy
  · exact .completion hc.1 hc.2 (step_unit_completion h hk hf hc.1 hc.2)
  by_cases hr : s.mover = .reset k
  · exact .reset hr (step_unit_reset h hk hf hr)
  cases step_unit s t k e f hi h hk hf with
  | same hfe => exact .same (fun v hv => hw ⟨.cmd, v, hv⟩) (fun v hv => hw ⟨.status, v, hv⟩) hc hr hfe
  | window x v hxv _ => exact absurd ⟨x, v, hxv⟩ hw
  | completion hm hb _ => exact absurd ⟨hm, hb⟩ hc
  | reset hm _ => exact absurd hm hr

/-! ## The flags, the latch and RESULT over every step -/

/-- Settles O31, by who moves. -/
theorem busyChangesOnlyAtAcceptanceCompletionReset : Obligations.BusyChangesOnlyAtAcceptanceCompletionReset := by
  refine ⟨fun e => by rw [statusWord_bit_zero, busy_iff], fun s t k e f hi h hk hf => ?_⟩
  simp only [exists_and_left]
  cases step_unit_exclusive hi h hk hf with
  | same hcmd _ heng hres hfe =>
    subst hfe
    refine ⟨fun hidle => by simp [hidle, hcmd], fun hb => ?_⟩
    have hm : s.mover ≠ .engine k := fun hm => heng ⟨hm, hb⟩
    simp [hb, hm, hres]
  | window x v hw w =>
    refine ⟨fun hidle => ?_, fun hb => ?_⟩
    · rw [w.busy_iff_accepts hidle, exists_cmd_write_iff hw]
    · simp [w.busy_of_busy hb, hw.1]
  | completion hm hb hc => simp [hm, hb, hc.phase_eq]
  | reset hm hfe => simp [hfe, Inst.reset, State.hostNext, hm]

/-- Settles O32, by who moves. -/
theorem doneChangesOnlyAtItsCauses : Obligations.DoneChangesOnlyAtItsCauses := by
  intro s t k e f hi h hk hf
  cases step_unit_exclusive hi h hk hf with
  | same _ hstatus heng hres hfe =>
    subst hfe
    have hsame : ¬ (f.phase = .idle ∧ f.phase = .busy) := by rintro ⟨h1, h2⟩; simp [h1] at h2
    exact ⟨fun hd => by simp [hd, heng], fun hd => by simp [hd, hres, hstatus, hsame]⟩
  | window x v hw w =>
    refine ⟨fun hd => by simp [w.done_of_not_done hd, hw.1], fun hd => ?_⟩
    rw [w.done_cleared_iff hd, exists_status_write_iff hw, getLsbD_ofNat_low v 1 (by decide)]
    simp [hw.1]
  | completion hm hb hc => simp [hm, hb, hc.done_eq, State.hostNext]
  | reset hm hfe => simp [hfe, Inst.reset, State.hostNext, hm]

/-- Settles O33, by who moves. -/
theorem errorFlagsAreSticky : Obligations.ErrorFlagsAreSticky := by
  intro s t k e f hi h hk hf
  simp only [exists_and_left]
  cases step_unit_exclusive hi h hk hf with
  | same hcmd hstatus _ hres hfe =>
    subst hfe
    simp +contextual [hcmd, hstatus, hres]
  | window x v hw w =>
    have hcmd : (∃ u, s.hostNext (.write e.base 4 u)) ↔ x = .cmd := by
      simpa using exists_cmd_write_iff hw (fun _ => True)
    have hres : s.mover ≠ .reset k := by simp [hw.1]
    rw [exists_cmd_write_iff hw, exists_status_write_iff hw, exists_status_write_iff hw, hcmd,
      ← getLsbD_ofNat_low v 2 (by decide), ← getLsbD_ofNat_low v 3 (by decide)]
    simp only [hres, false_or]
    exact ⟨w.illegal_set_iff, w.collide_set_iff, w.illegal_cleared_iff, w.collide_cleared_iff⟩
  | completion hm hb hc => simp +contextual [hc.illegal_eq, hc.collide_eq, hb, hm, State.hostNext]
  | reset hm hfe => simp [hfe, Inst.reset, State.hostNext, hm]

/-- Settles O34: of all that may happen to a unit but a reset, only acceptance loads the latch. -/
theorem latchIsLoadedOnlyByAcceptance : Obligations.LatchIsLoadedOnlyByAcceptance := by
  intro s t k e f hi h hk hf hne hres
  cases step_unit s t k e f hi h hk hf with
  | same hfe => exact absurd (congrArg Inst.latch hfe) hne
  | window x v hw w =>
    obtain ⟨rfl, hidle, hb, i, hd, hl⟩ := w.latch_of_ne hne
    exact ⟨hidle, hb, v, i, hw, hd, hl⟩
  | completion _ _ hc => exact absurd hc.latch_eq hne
  | reset hm _ => exact absurd hm hres

/-- Settles O35: of all that may happen to a unit but a reset, only a completion that is no transform writes RESULT. -/
theorem resultIsWrittenOnlyAtCompletion : Obligations.ResultIsWrittenOnlyAtCompletion := by
  intro s t k e f hi h hk hf hne hres
  cases step_unit s t k e f hi h hk hf with
  | same hfe => exact absurd (congrArg Inst.result hfe) hne
  | window x v hw w => exact absurd w.result_eq hne
  | completion hm hb hc =>
    exact ⟨hm, hb, fun hop => hne (hc.transform (.inl hop)).1, fun hop => hne (hc.transform (.inr hop)).1⟩
  | reset hm _ => exact absurd hm hres

/-! ## A busy unit completes (10_state R47, 70_reset R262) -/

/-- Within `n` steps there is a time at which no unit is busy, unless the run stops first. -/
def State.IdleWithin (s : State) (n : Nat) : Prop :=
  ∃ m ≤ n, ∀ t, Sys2Proof.core.run m s = .next t → ∀ f ∈ t.insts, f.phase = .idle

theorem idleWithin_of_idle (s : State) (n : Nat) (h : ∀ f ∈ s.insts, f.phase = .idle) : s.IdleWithin n := by
  refine ⟨0, Nat.zero_le n, fun t ht => ?_⟩
  injection ht with ht
  exact ht ▸ h

theorem idleWithin_succ (s : State) (n : Nat) (h : ∀ t, step s = .next t → t.IdleWithin n) : s.IdleWithin (n + 1) := by
  cases hs : step s with
  | next u =>
    obtain ⟨m, hm, hidle⟩ := h u hs
    refine ⟨m + 1, Nat.succ_le_succ hm, fun t ht => hidle t ?_⟩
    simpa [Host.Core.run, Sys2Proof.core, hs] using ht
  | fault r => exact ⟨1, by omega, fun t ht => by simp [Host.Core.run, Sys2Proof.core, hs] at ht⟩
  | refused r => exact ⟨1, by omega, fun t ht => by simp [Host.Core.run, Sys2Proof.core, hs] at ht⟩

/-- A step uses up one turn, and no unit comes or goes. -/
theorem step_turns_and_length (s t : State) (h : step s = .next t) :
    t.turns = s.turns.tail ∧ t.insts.length = s.insts.length := by
  cases step_next s t h with
  | host _ hd =>
    cases hd with
    | quiet v hs ht => exact ht ▸ ⟨rfl, rfl⟩
    | memory addr n v rest _ _ _ ht => exact ht ▸ ⟨rfl, rfl⟩
    | window addr v k e f rest _ _ _ _ _ ht => exact ht ▸ ⟨rfl, List.length_set⟩
  | nothing _ _ _ ht => exact ht ▸ ⟨rfl, rfl⟩
  | completion k e f _ _ _ _ _ hc => exact hc.state ▸ ⟨rfl, List.length_set⟩
  | resetIdle k e _ _ _ ht => exact ht ▸ ⟨rfl, List.length_set⟩
  | resetBusy k e _ _ _ ht => exact ht ▸ ⟨rfl, List.length_set⟩

/-- With no order fixed and a unit busy, a step completes a command (log 2): one busy unit fewer. -/
theorem step_completes_one (s t : State) (h : step s = .next t) (hturns : s.turns = [])
    (hbusy : ∃ e ∈ s.insts, e.busy = true) : t.insts.countP Inst.busy + 1 = s.insts.countP Inst.busy := by
  obtain ⟨k, hk⟩ : ∃ k, s.insts.findIdx? Inst.busy = some k :=
    Option.isSome_iff_exists.1 (by simpa using hbusy)
  have hm : s.mover = .engine k := by simp [State.mover, hturns, State.nextAgent, hk]
  obtain ⟨hlt, hb, -⟩ := List.findIdx?_eq_some_iff_getElem.1 hk
  rw [step_engine_busy s k s.insts[k] hm (List.getElem?_eq_getElem hlt) ((busy_iff _).1 hb)] at h
  obtain ⟨d, f, -, -, -, hc⟩ := exec_next _ _ _ h
  have hins : t.insts = s.insts.set k f := congrArg State.insts hc.state
  have hf : f.busy = false := (not_busy_iff f).2 hc.phase_eq
  have hpos : 0 < s.insts.countP Inst.busy := List.countP_pos_iff.2 ⟨_, List.getElem_mem hlt, hb⟩
  rw [hins, List.countP_set hlt]
  simp only [hb, hf, if_true, Bool.false_eq_true, if_false]
  omega

/-- With no order fixed, the busy units complete one after the other. -/
theorem idleWithin_of_no_turns (s : State) (n : Nat) (hturns : s.turns = []) (hn : s.insts.countP Inst.busy ≤ n) :
    s.IdleWithin n := by
  induction n generalizing s with
  | zero =>
    refine idleWithin_of_idle s 0 fun f hf => (not_busy_iff f).1 ?_
    simpa using List.countP_eq_zero.1 (Nat.le_zero.1 hn) f hf
  | succ n ih =>
    by_cases hbusy : ∃ e ∈ s.insts, e.busy = true
    · refine idleWithin_succ s n fun t ht => ih t ?_ ?_
      · rw [(step_turns_and_length s t ht).1, hturns, List.tail_nil]
      · have := step_completes_one s t ht hturns hbusy
        omega
    · exact idleWithin_of_idle s _ fun f hf => (not_busy_iff f).1 (eq_false_of_ne_true fun hb => hbusy ⟨f, hf, hb⟩)

/-- The fixed turns are used up first; then there are at most as many busy units as units. -/
theorem idleWithin_turns_add_units (s : State) : s.IdleWithin (s.turns.length + s.insts.length) := by
  induction hturns : s.turns generalizing s with
  | nil => exact idleWithin_of_no_turns s _ hturns (List.countP_le_length.trans (Nat.le_add_left _ _))
  | cons a turns ih =>
    rw [List.length_cons, Nat.add_right_comm]
    refine idleWithin_succ s _ fun t ht => ?_
    obtain ⟨hturns', hlen⟩ := step_turns_and_length s t ht
    exact hlen ▸ ih t (by rw [hturns', hturns, List.tail_cons])

/-- Settles O48: there is a time at which no unit at all is busy, and it comes soon enough. -/
theorem busyUnitCompletesInBoundedSteps : Obligations.BusyUnitCompletesInBoundedSteps := by
  intro s k e _ _ _
  obtain ⟨n, hn, hidle⟩ := idleWithin_turns_add_units s
  refine ⟨n, hn, ?_⟩
  split
  · rename_i t ht
    exact fun f hf => hidle t ht f (List.mem_of_getElem? hf)
  · trivial
  · trivial

end Sys2Proof.Machine
end

section
/-! Family 20_memory: what memory holds and who may change it, the regions of the commands, and the invariant over a
step. -/

namespace Sys2Proof.Machine

open Sys2Proof

/-! ## The canonical form of memory (log 5) -/

theorem above_cons {c : Host.Cell} {m : Memory} {a : Nat} (hc : a < c.1) (h : Memory.above m c.1) :
    Memory.above (c :: m) a := by
  intro d hd
  rcases List.mem_cons.1 hd with rfl | hd
  · exact hc
  · exact hc.trans (h d hd)

theorem read_cons_self (c : Host.Cell) (m : Memory) : Memory.read (c :: m) c.1 = c.2 := by simp [Memory.read]

theorem read_cons_of_ne {c : Host.Cell} {a : Nat} (m : Memory) (h : c.1 ≠ a) : Memory.read (c :: m) a = m.read a := by
  simp [Memory.read, h]

/-- The lowest address listed is seen by a read, so no memory that reads the same lies above it. -/
theorem not_above_of_read_eq {c : Host.Cell} {m n : Memory} (hm : Memory.wf (c :: m) = true)
    (h : ∀ a, Memory.read (c :: m) a = n.read a) : ¬ Memory.above n c.1 := by
  intro habove
  have hc := h c.1
  rw [read_cons_self, read_above n c.1 habove] at hc
  exact ((wf_cons c m).1 hm).1 hc

/-- Settles O27: the lowest addresses listed agree, hence their bytes, hence the rest. -/
theorem canonicalMemoriesAreExtensional : Obligations.CanonicalMemoriesAreExtensional := by
  intro m
  induction m with
  | nil =>
    intro n _ hn h
    cases n with
    | nil => rfl
    | cons d n => exact absurd (fun _ hx => nomatch hx) (not_above_of_read_eq hn fun a => (h a).symm)
  | cons c m ih =>
    intro n hm hn h
    cases n with
    | nil => exact absurd (fun _ hx => nomatch hx) (not_above_of_read_eq hm h)
    | cons d n =>
      obtain ⟨-, hma, hmwf⟩ := (wf_cons c m).1 hm
      obtain ⟨-, hna, hnwf⟩ := (wf_cons d n).1 hn
      have h1 : ¬ c.1 < d.1 := fun hlt => not_above_of_read_eq hm h (above_cons hlt hna)
      have h2 : ¬ d.1 < c.1 := fun hlt => not_above_of_read_eq hn (fun a => (h a).symm) (above_cons hlt hma)
      have haddr : c.1 = d.1 := by omega
      have hbyte : c.2 = d.2 := by
        have := h c.1
        rwa [read_cons_self, haddr, read_cons_self] at this
      have htail : ∀ a, Memory.read m a = Memory.read n a := by
        intro a
        by_cases ha : c.1 = a
        · rw [← ha, read_above m _ hma, read_above n _ (haddr ▸ hna)]
        · rw [← read_cons_of_ne m ha, h, read_cons_of_ne n (haddr ▸ ha)]
      rw [Prod.ext haddr hbyte, ih n hmwf hnwf htail]

/-- The signed value of an element, from its two bytes as a number (20_memory R72). -/
theorem sext16_readHalf (m : Memory) (a : Nat) : sext16 (m.readHalf a) =
    if m.readBytes a 2 < 32768 then (m.readBytes a 2 : Int) else (m.readBytes a 2 : Int) - 65536 := by
  have hlt : m.readBytes a 2 < 65536 := by
    have h0 := (m.read a).isLt
    have h1 := (m.read (a + 1)).isLt
    rw [readBytes_two]
    omega
  rw [sext16, Memory.readHalf, BitVec.toInt_eq_toNat_cond, BitVec.toNat_ofNat, Nat.mod_eq_of_lt hlt]
  split <;> split <;> omega

/-- Settles O26: two bytes, written one after the other. -/
theorem coefficientsAreLittleEndian : Obligations.CoefficientsAreLittleEndian := by
  intro m a v hm
  refine ⟨readBytes_two m a, ?_, ?_, fun b h0 h1 => read_writeBytes_other _ _ _ _ _ (by omega), sext16_readHalf m a⟩
  · rw [writeBytes_two, read_write_other _ _ _ _ (by omega), read_write_same _ _ _ hm, BitVec.toNat_ofNat]
  · rw [writeBytes_two, read_write_same _ _ _ (write_wf _ _ _ hm), BitVec.toNat_ofNat]

/-! ## The regions of the commands (20_memory R73 to R75) -/

/-- A byte of an element of `n` bytes is the element's address and a place in it. -/
theorem between_iff_exists_lt (x n a : Nat) : (x ≤ a ∧ a < x + n) ↔ ∃ b < n, a = x + b := by
  constructor
  · rintro ⟨h1, h2⟩
    exact ⟨a - x, by omega, by omega⟩
  · rintro ⟨b, hb, rfl⟩
    omega

/-- The elements of a grid, each of `n` bytes, byte by byte. -/
theorem mem_gridBytes (m n : Nat) (addr : Nat → Nat → Nat) (a : Nat) :
    (∃ x ∈ (gridPositions m).map (fun p => addr p.1 p.2), x ≤ a ∧ a < x + n) ↔
      ∃ r < m, ∃ c < m, ∃ b < n, a = addr r c + b := by
  simp only [List.mem_map, mem_gridPositions, Prod.exists, between_iff_exists_lt]
  constructor
  · rintro ⟨_, ⟨r, c, ⟨hr, hc⟩, rfl⟩, b, hb, rfl⟩
    exact ⟨r, hr, c, hc, b, hb, rfl⟩
  · rintro ⟨r, hr, c, hc, b, hb, rfl⟩
    exact ⟨_, ⟨r, c, ⟨hr, hc⟩, rfl⟩, b, hb, rfl⟩

theorem mem_sampleBytes (m : Nat) (L : Latch) (a : Nat) :
    (∃ x ∈ (gridPositions m).map (fun p => L.sampleAddr p.1 p.2), x ≤ a ∧ a < x + 1) ↔
      ∃ r < m, ∃ c < m, a = L.src.toNat + r * L.stride.toNat + c :=
  (mem_gridBytes m 1 L.sampleAddr a).trans (by simp [Latch.sampleAddr])

/-- The tile-major output is 512 bytes on end (20_memory R75). -/
theorem mem_tileBytes (L : Latch) (a : Nat) :
    (∃ x ∈ tilePositions.map (fun p => L.tileAddr p.1 p.2.1 p.2.2), x ≤ a ∧ a < x + 2) ↔
      L.dst.toNat ≤ a ∧ a < L.dst.toNat + 512 := by
  simp only [List.mem_map, mem_tilePositions, Prod.exists, Latch.tileAddr, Config.tilePitch]
  constructor
  · rintro ⟨_, ⟨t, u, v, ⟨ht, hu, hv⟩, rfl⟩, h1, h2⟩
    omega
  · rintro ⟨h1, h2⟩
    obtain ⟨d, rfl⟩ := Nat.exists_eq_add_of_le h1
    exact ⟨_, ⟨d / 128, d / 16 % 8, d / 2 % 8, ⟨by omega, by omega, by omega⟩, rfl⟩, by omega, by omega⟩

/-- Settles O25, command by command. -/
theorem regionsAreThoseOfTheAddressingRules : Obligations.RegionsAreThoseOfTheAddressingRules := by
  intro L a
  simp only [mem_inputBytes, mem_outputBytes]
  refine ⟨mem_sampleBytes 4 L a, mem_sampleBytes 8 L a, mem_gridBytes 8 2 (L.coefAddr L.src) a,
    mem_gridBytes 16 2 (L.coefAddr L.src) a, mem_gridBytes 8 2 (L.coefAddr L.dst) a, mem_tileBytes L a, ?_, ?_,
    rfl, rfl, rfl, rfl⟩
  · rintro i (rfl | rfl) <;> rfl
  · rintro i sh (rfl | rfl | rfl | rfl | rfl) <;> exact ⟨rfl, rfl, rfl⟩

/-- Only the transforms have an output region. -/
theorem transform_of_mem_outputBytes {i : Instr} {L : Latch} {a : Nat} (h : a ∈ outputBytes i L) :
    i = .had8 ∨ i = .had16 := by
  cases i with
  | had8 => exact .inl rfl
  | had16 => exact .inr rfl
  | avg4 | avg8 | shl _ | shr _ | shrr _ | sra _ | srar _ => exact nomatch h

/-! ## Accesses to memory (20_memory R88) -/

theorem forall_mem_bytesFrom_iff (a n : Nat) (p : Nat → Prop) :
    (∀ b ∈ bytesFrom a n, p b) ↔ ∀ b, a ≤ b → b < a + n → p b := by
  simp only [mem_bytesFrom, and_imp]

theorem owned_write_eq_false_iff (s : State) (addr n : Nat) : s.owned ⟨.host, .write, addr, n⟩ = false ↔
    ∀ e ∈ s.insts, e.phase = .busy → ∀ a, addr ≤ a → a < addr + n →
      a ∉ inputBytes e.latch.op e.latch ∧ a ∉ outputBytes e.latch.op e.latch := by
  rw [← Bool.not_eq_true, owned_write_iff]
  simp only [not_exists, not_and, not_or]

theorem owned_read_eq_false_iff (s : State) (addr n : Nat) : s.owned ⟨.host, .read, addr, n⟩ = false ↔
    ∀ e ∈ s.insts, e.phase = .busy → ∀ a, addr ≤ a → a < addr + n → a ∉ outputBytes e.latch.op e.latch := by
  rw [← Bool.not_eq_true, owned_read_iff]
  simp only [not_exists, not_and]

theorem memoryAccess_owned {s : State} {a : Access} (u : State) (h : s.owned a = true) :
    s.memoryAccess a u = .fault (.mf4 a) := by
  simp [State.memoryAccess, h]

theorem memoryAccess_admitted {s : State} {a : Access} (u : State) (h : s.owned a = false)
    (hb : ∀ b ∈ a.byteList, admits s.memAdmit b = true) : s.memoryAccess a u = .next u := by
  simp [State.memoryAccess, h, List.all_eq_true.2 hb]

theorem memoryAccess_unbacked {s : State} {a : Access} (u : State) (h : s.owned a = false)
    (hb : ∃ b ∈ a.byteList, admits s.memAdmit b = false) : s.memoryAccess a u = .refused (.hostUnbacked a) := by
  have hall : a.byteList.all (admits s.memAdmit) = false := by simpa using hb
  simp [State.memoryAccess, h, hall]

/-- A host write that touches no window. -/
theorem step_memory_write {s : State} {addr n v : Nat} (h : s.hostNext (.write addr n v))
    (hw : s.windowAt (bytesFrom addr n) = none) :
    step s = s.hostUsed.memoryAccess ⟨.host, .write, addr, n⟩ { s.hostUsed with mem := s.mem.writeBytes addr n v } :=
  (step_host_write s addr n v h).trans (hostStore_memory s.hostUsed addr n v hw)

/-- A host read that touches no window. -/
theorem step_memory_read {s : State} {addr n : Nat} (h : s.hostNext (.read addr n))
    (hw : s.windowAt (bytesFrom addr n) = none) :
    step s = s.hostUsed.memoryAccess ⟨.host, .read, addr, n⟩ { s.hostUsed with hostRead := s.mem.readBytes addr n } :=
  (step_host_read s addr n h).trans (hostLoad_memory s.hostUsed addr n hw)

/-- A completion of the unit whose engine moves stops where the ownership of another unit stands in its way. -/
theorem step_engine_conflict {s : State} {k : Nat} {e : Inst} (hm : s.mover = .engine k) (hk : s.insts[k]? = some e)
    (hb : e.phase = .busy) (hp : preFault s.memAdmit e.latch.op e.latch = none)
    (ho : ¬ s.ownershipOk k e.latch.op e.latch) : ∃ a, step s = .fault (.mf4 a) ∧ a.agent = .engine k := by
  rw [← engineConflict_eq_none_iff] at ho
  obtain ⟨a, ha⟩ := Option.ne_none_iff_exists'.1 ho
  refine ⟨a, ?_, engineConflict_agent s k _ _ a ha⟩
  rw [step_engine_busy s k e hm hk hb]
  exact exec_of_conflict _ _ e a hk hp ha

/-- A completion of the unit whose engine moves goes on where no ownership stands in its way. -/
theorem step_engine_goes_on {s : State} {k : Nat} {e : Inst} (hm : s.mover = .engine k) (hk : s.insts[k]? = some e)
    (hb : e.phase = .busy) (hp : preFault s.memAdmit e.latch.op e.latch = none)
    (ho : s.ownershipOk k e.latch.op e.latch) : ∃ t, step s = .next t := by
  rw [step_engine_busy s k e hm hk hb]
  exact exec_of_ok _ _ e hk hp ho

/-- Settles O39: host writes, host reads, completions. -/
theorem interferenceIsAFault : Obligations.InterferenceIsAFault := by
  refine ⟨fun s addr n v hi h => ⟨fun hw hown => ?_, fun hadm hfree => ?_⟩,
    fun s addr n hi h => ⟨fun hw hown => ?_, fun hadm hfree => ?_⟩, fun s k e hi hm hk hb => ?_⟩
  · rw [step_memory_write h (windowAt_none_of_range s addr n hw)]
    exact memoryAccess_owned _ ((owned_write_iff s addr n).2 hown)
  · have hadm' := (forall_mem_bytesFrom_iff addr n _).2 hadm
    rw [step_memory_write h (windowAt_of_admitted s hi _ hadm')]
    exact memoryAccess_admitted _ ((owned_write_eq_false_iff s addr n).2 hfree) hadm'
  · rw [step_memory_read h (windowAt_none_of_range s addr n hw)]
    exact memoryAccess_owned _ ((owned_read_iff s addr n).2 hown)
  · have hadm' := (forall_mem_bytesFrom_iff addr n _).2 hadm
    rw [step_memory_read h (windowAt_of_admitted s hi _ hadm')]
    exact memoryAccess_admitted _ ((owned_read_eq_false_iff s addr n).2 hfree) hadm'
  · obtain ⟨-, -, -, -, hok⟩ := hi
    obtain ⟨-, -, hp⟩ := ok_busy _ _ (hok e (List.mem_of_getElem? hk)) hb
    exact ⟨step_engine_conflict hm hk hb hp, step_engine_goes_on hm hk hb hp⟩

/-- Settles O40: the access reaches memory, nobody owns its bytes, and one of them is not backed. -/
theorem unbackedHostAccessIsRefused : Obligations.UnbackedHostAccessIsRefused := by
  intro s addr n v ⟨a, h1, h2, ha⟩ hw
  have hnone := windowAt_none_of_range s addr n hw
  have hbyte : ∃ b ∈ bytesFrom addr n, admits s.memAdmit b = false := ⟨a, (mem_bytesFrom _ _ _).2 ⟨h1, h2⟩, ha⟩
  refine ⟨fun h hfree => ?_, fun h hfree => ?_⟩
  · rw [step_memory_read h hnone]
    exact memoryAccess_unbacked _ ((owned_read_eq_false_iff s addr n).2 hfree) hbyte
  · rw [step_memory_write h hnone]
    exact memoryAccess_unbacked _ ((owned_write_eq_false_iff s addr n).2 hfree) hbyte

/-- Settles O46: the completion checks the preconditions first, in the order of the check. -/
theorem completionStopsOnBrokenPreconditions : Obligations.CompletionStopsOnBrokenPreconditions := by
  intro s e i he odd narrow outside
  have hodd : odd ↔ alignedOk i e.latch = false := (alignedOk_eq_false_iff i e.latch).symm
  have hnarrow : narrow ↔ strideOk i e.latch = false := (strideOk_eq_false_iff i e.latch).symm
  have houtside : outside ↔ boundsOk s.memAdmit i e.latch = false := (boundsOk_eq_false_iff s.memAdmit i e.latch).symm
  simp only [hodd, hnarrow, houtside, Bool.not_eq_false]
  refine ⟨fun ha => ?_, fun ha hs => ?_, fun ha hs hb => ?_⟩
  · exact exec_of_preFault _ _ _ _ he (preFault_misaligned _ _ _ ha)
  · exact exec_of_preFault _ _ _ _ he (preFault_narrow _ _ _ ha hs)
  · exact exec_of_preFault _ _ _ _ he (preFault_outside _ _ _ ha hs hb)

/-! ## Who changes a byte of memory -/

/-- What made a byte change in a step: everything the mover was bound by then. -/
inductive ByteChanged (s : State) (a : Nat) : Prop where
  /-- A host write that no running command's ownership forbids. -/
  | host (addr n v : Nat) : s.hostNext (.write addr n v) → addr ≤ a → a < addr + n →
      s.owned ⟨.host, .write, addr, n⟩ = false → ByteChanged s a
  /-- A completion that respects the other units' ownership. -/
  | completion (k : Nat) (e : Inst) : s.mover = .engine k → s.insts[k]? = some e → e.phase = .busy →
      s.ownershipOk k e.latch.op e.latch → a ∈ outputBytes e.latch.op e.latch → ByteChanged s a
  /-- The reset of a running unit (70_reset R251). -/
  | reset (k : Nat) (e : Inst) : s.mover = .reset k → s.insts[k]? = some e → e.phase = .busy →
      a ∈ outputBytes e.latch.op e.latch → ByteChanged s a

theorem step_byteChanged {s t : State} {a : Nat} (h : step s = .next t) (hne : t.mem.read a ≠ s.mem.read a) :
    ByteChanged s a := by
  have same : t.mem ≠ s.mem := fun hm => hne (by rw [hm])
  cases step_next s t h with
  | host hm hd =>
    cases hd with
    | quiet v hs ht => exact absurd (ht ▸ rfl) same
    | window addr v k e f rest _ _ _ _ _ ht => exact absurd (ht ▸ rfl) same
    | memory addr n v rest hs hadm ho ht =>
      by_cases ha : addr ≤ a ∧ a < addr + n
      · exact .host addr n v ⟨hm, by rw [hs]; rfl⟩ ha.1 ha.2 ho
      · refine absurd ?_ hne
        rw [ht]
        exact read_writeBytes_other _ _ _ _ _ (by omega)
  | nothing _ _ _ ht => exact absurd (ht ▸ rfl) same
  | completion k e f hm hk hb _ ho hc =>
    exact .completion k e hm hk hb ho (by_contra fun ha => hne (hc.frame a ha))
  | resetIdle k e _ _ _ ht => exact absurd (ht ▸ rfl) same
  | resetBusy k e hm hk hb ht =>
    refine .reset k e hm hk hb (by_contra fun ha => hne ?_)
    rw [ht]
    exact read_scramble_other _ _ _ _ ha

/-- Settles O37, by what changed the byte. -/
theorem memoryChangesOnlyWhereItMay : Obligations.MemoryChangesOnlyWhereItMay := by
  intro s t a _ h hne
  cases step_byteChanged h hne with
  | host addr n v hw h1 h2 _ => exact .inl ⟨addr, n, v, hw, h1, h2⟩
  | completion k e hm hk hb _ ha => exact .inr ⟨k, e, .inl hm, hk, hb, transform_of_mem_outputBytes ha, ha⟩
  | reset k e hm hk hb ha => exact .inr ⟨k, e, .inr hm, hk, hb, transform_of_mem_outputBytes ha, ha⟩

/-- Settles O38: whatever could change the byte is bound by the unit's ownership, and whatever could change the unit
leaves a running command as it is. -/
theorem regionsAreStableWhileBusy : Obligations.RegionsAreStableWhileBusy := by
  intro s t k e a hi h hk hb heng hres hreg
  refine ⟨by_contra fun hne => ?_, ?_⟩
  · cases step_byteChanged h hne with
    | host addr n v _ h1 h2 ho =>
      obtain ⟨hin, hout⟩ := (owned_write_eq_false_iff s addr n).1 ho e (List.mem_of_getElem? hk) hb a h1 h2
      exact hreg.elim hin hout
    | completion j d hm _ _ ho ha =>
      have hkj : k ≠ j := fun hkj => heng (hkj ▸ hm)
      obtain ⟨-, hwrite⟩ := ho k e hk hkj ((busy_iff e).2 hb)
      exact hreg.elim (hwrite a ha).1 (hwrite a ha).2
    | reset j d hm _ _ _ => exact hres j hm
  · have hlt : k < t.insts.length := by
      rw [(step_turns_and_length s t h).2]
      exact (List.getElem?_eq_some_iff.1 hk).1
    refine ⟨t.insts[k], List.getElem?_eq_getElem hlt, ?_⟩
    cases step_unit s t k e _ hi h hk (List.getElem?_eq_getElem hlt) with
    | same hfe => exact hfe.symm ▸ ⟨hb, rfl⟩
    | window x v hw w =>
      refine ⟨w.busy_of_busy hb, by_contra fun hl => ?_⟩
      obtain ⟨-, hidle, -⟩ := w.latch_of_ne hl
      simp [hb] at hidle
    | completion hm _ _ => exact absurd hm heng
    | reset hm _ => exact absurd hm (hres k)

/-! ## The invariant over a step -/

/-- SHAMT is a field of four bits (30_encoding R101). -/
theorem shamtField_lt (w : Word) : shamtField w < 16 := by
  rw [shamtField_eq]
  omega

theorem decodeFixed_ok {w : Word} {i j : Instr} (h : decodeFixed w i = .ok j) : j = i := by
  simp only [decodeFixed] at h
  split at h
  · injection h with h
    exact h.symm
  · simp at h

theorem decodeShiftForm_wf {sgn rnd dir : Bool} {n : Nat} {i : Instr} (hn : n < 16)
    (h : decodeShiftForm sgn rnd dir n = .ok i) : i.wf = true := by
  simp only [decodeShiftForm] at h
  split at h <;> cases h <;> exact decide_eq_true hn

/-- A word that decodes is a command: its SHAMT is below 16. -/
theorem decode_wf {w : Word} {i : Instr} (h : decode w = .ok i) : i.wf = true := by
  simp only [decode] at h
  split at h
  · rw [decodeFixed_ok h]; rfl
  · rw [decodeFixed_ok h]; rfl
  · rw [decodeFixed_ok h]; rfl
  · rw [decodeFixed_ok h]; rfl
  · simp only [decodeShift] at h
    split at h
    · exact decodeShiftForm_wf (shamtField_lt w) h
    · simp at h
  · simp at h

/-- A write of the window leaves its unit ok: acceptance has checked the preconditions. -/
theorem WindowWrite.ok {s : State} {e f : Inst} {x : Slot} {v : Word} (w : WindowWrite s e x v f)
    (h : e.ok s.memAdmit = true) : f.ok s.memAdmit = true := by
  cases w with
  | collide _ _ => exact h
  | illegal y _ _ _ => exact h
  | accepted i _ _ hd hp => exact ok_of_busy _ e _ h rfl (decode_wf hd) rfl hp
  | slot _ =>
    cases hb : e.phase with
    | idle => exact ok_of_idle _ e _ h (writeSlot_base e v x) (by rw [writeSlot_phase, hb])
    | busy =>
      obtain ⟨hop, hdone, hp⟩ := ok_busy _ e h hb
      refine ok_of_busy _ e _ h (writeSlot_base e v x) ?_ (writeSlot_done e v x hdone) ?_
      · rwa [writeSlot_latch]
      · rwa [writeSlot_latch]

theorem WindowWrite.base_eq {s : State} {e f : Inst} {x : Slot} {v : Word} (w : WindowWrite s e x v f) :
    f.base = e.base := by
  cases w with
  | collide _ _ => rfl
  | illegal y _ _ _ => rfl
  | accepted i _ _ _ _ => rfl
  | slot _ => exact writeSlot_base e v x

namespace CompletedAs

variable {i : Instr} {s t : State} {e f : Inst}

theorem base_eq (h : CompletedAs i s t e f) : f.base = e.base := by rw [h.unit]
theorem memAdmit_eq (h : CompletedAs i s t e f) : t.memAdmit = s.memAdmit := by rw [h.state]
theorem insts_eq (h : CompletedAs i s t e f) : t.insts = s.insts.set s.sel f := by rw [h.state]

end CompletedAs

theorem reset_ok {memAdmit : List Region} {e : Inst} (h : e.ok memAdmit = true) :
    (Inst.reset e.base).ok memAdmit = true :=
  ok_of_idle memAdmit e _ h rfl rfl

/-- The output region of a command whose preconditions hold is ordinary memory. -/
theorem admits_of_mem_outputBytes {memAdmit : List Region} {i : Instr} {L : Latch} {a : Nat}
    (hp : preFault memAdmit i L = none) (ha : a ∈ outputBytes i L) : admits memAdmit a = true := by
  obtain ⟨-, -, hb⟩ := (preFault_eq_none_iff _ _ _).1 hp
  exact (boundsOk_iff _ _ _).1 hb a (.inr ha)

/-- Settles O52, by what the step did: to memory, to one unit, or to both. -/
theorem stepKeepsTheInvariant : Obligations.StepKeepsTheInvariant := by
  intro s t hi h
  have ⟨hwf, hcells, hne, hnodup, hok⟩ := hi
  have unit_ok : ∀ {k : Nat} {e : Inst}, s.insts[k]? = some e → e.ok s.memAdmit = true := fun hk => hok _ (List.mem_of_getElem? hk)
  cases step_next s t h with
  | host _ hd =>
    cases hd with
    | quiet v hs ht => exact ht ▸ hi
    | memory addr n v rest _ hadm _ ht =>
      subst ht
      refine ⟨writeBytes_wf _ _ _ _ hwf, fun c hc => ?_, hne, hnodup, hok⟩
      rcases mem_writeBytes _ _ _ _ _ hc with hc | hc
      · exact hadm _ ((mem_bytesFrom _ _ _).2 hc)
      · exact hcells c hc
    | window addr v k e f rest _ _ hk _ w ht =>
      subst ht
      exact inv_of_set s _ hi k e f hk w.base_eq (w.ok (unit_ok hk)) hwf hcells rfl rfl
  | nothing _ _ _ ht => exact ht ▸ hi
  | completion k e f _ hk _ hp _ hc =>
    exact inv_of_set s t hi k e f hk hc.base_eq (ok_of_idle _ e f (unit_ok hk) hc.base_eq hc.phase_eq) (hc.wf hwf)
      (fun c hct => (hc.cells c hct).elim (hcells c) (admits_of_mem_outputBytes hp)) hc.memAdmit_eq hc.insts_eq
  | resetIdle k e _ hk _ ht =>
    subst ht
    exact inv_of_set s _ hi k e (Inst.reset e.base) hk rfl (reset_ok (unit_ok hk)) hwf hcells rfl rfl
  | resetBusy k e _ hk hb ht =>
    subst ht
    obtain ⟨-, -, hp⟩ := ok_busy _ e (unit_ok hk) hb
    exact inv_of_set s _ hi k e (Inst.reset e.base) hk rfl (reset_ok (unit_ok hk)) (scramble_wf _ _ _ hwf)
      (fun c hc => (mem_scramble _ _ _ _ hc).elim (admits_of_mem_outputBytes hp) (hcells c)) rfl rfl

end Sys2Proof.Machine
end

section
/-! Family 30_encoding: the decoder, the encoder and the match and mask table agree; what a command word does in the
machine, from its CMD write to the end of its WAIT. -/

namespace Sys2Proof

/-! ## A command's word as a number (30_encoding R101, R105) -/

/-- The word with OP 5, the given flags, SHAMT `s` and RSV 0. -/
def shiftNumber (sgn rnd dir : Bool) (s : Nat) : Nat :=
  5 + 16 * s + 256 * dir.toNat + 512 * rnd.toNat + 1024 * sgn.toNat

/-- The command word as a number; `encode_toNat` and `decode_eq_ok_iff` tie it to the encoder and the decoder. -/
def Instr.number : Instr → Nat
  | .avg4 => 1
  | .avg8 => 2
  | .had8 => 3
  | .had16 => 4
  | .shl s => shiftNumber false false true s
  | .shr s => shiftNumber false false false s
  | .shrr s => shiftNumber false true false s
  | .sra s => shiftNumber true false false s
  | .srar s => shiftNumber true true false s

/-- A shift amount of four bits, put into a word whose SHAMT is 0, is added to it. -/
theorem shiftWord_toNat (fixed : Word) (s : Nat) (hs : s < 16) (hf : fixed.toNat / 16 % 16 = 0) :
    (shiftWord fixed s).toNat = fixed.toNat + 16 * s := by
  have hlow : fixed.toNat % 256 = fixed.toNat % 16 := by omega
  have hmask : fixed.toNat = 2 ^ 8 * (fixed.toNat / 256) ||| fixed.toNat % 16 := by
    rw [← Nat.two_pow_add_eq_or_of_lt (by omega)]
    omega
  have hamount : (BitVec.ofNat 32 s <<< 4).toNat = 2 ^ 4 * s := by
    rw [BitVec.toNat_shiftLeft, BitVec.toNat_ofNat, Nat.shiftLeft_eq]
    omega
  calc (shiftWord fixed s).toNat = fixed.toNat ||| 2 ^ 4 * s := by rw [shiftWord, BitVec.toNat_or, hamount]
    _ = 2 ^ 8 * (fixed.toNat / 256) ||| (2 ^ 4 * s ||| fixed.toNat % 16) := by
        rw [Nat.or_comm (2 ^ 4 * s), ← Nat.or_assoc, ← hmask]
    _ = 2 ^ 8 * (fixed.toNat / 256) + (2 ^ 4 * s + fixed.toNat % 16) := by
        rw [← Nat.two_pow_add_eq_or_of_lt (i := 4) (by omega), ← Nat.two_pow_add_eq_or_of_lt (by omega)]
    _ = fixed.toNat + 16 * s := by omega

theorem encode_toNat {i : Instr} (h : i.wf = true) : (encode i).toNat = i.number := by
  cases i with
  | avg4 | avg8 | had8 | had16 => rfl
  | shl s | shr s | shrr s | sra s | srar s =>
    rw [encode, shiftWord_toNat _ s (of_decide_eq_true h) (by decide)]
    simp only [Instr.number, shiftNumber, Bool.toNat_true, Bool.toNat_false, BitVec.reduceToNat]
    omega

/-! ## What the decoder answers -/

theorem decodeFixed_ok_iff (w : Word) (i j : Instr) : decodeFixed w i = .ok j ↔ w.toNat / 16 = 0 ∧ i = j := by
  simp only [decodeFixed, aboveOp_eq]
  split <;> simp_all

/-- A shift form that decodes is the command of these fields. -/
theorem number_of_decodeShiftForm {sgn rnd dir : Bool} {s : Nat} {i : Instr}
    (h : decodeShiftForm sgn rnd dir s = .ok i) : i.number = shiftNumber sgn rnd dir s := by
  simp only [decodeShiftForm] at h
  split at h <;> cases h <;> rfl

/-- A word with OP 5 and RSV 0 is the number of its fields. -/
theorem toNat_eq_shiftNumber {w : Word} (hop : opField w = 5) (hrsv : rsvField w = 0) :
    w.toNat = shiftNumber (sgnField w) (rndField w) (dirField w) (shamtField w) := by
  rw [opField_eq] at hop
  rw [rsvField_eq] at hrsv
  have toNat_bit : ∀ n : Nat, (decide (n % 2 = 1)).toNat = n % 2 := fun n => by
    rcases Nat.mod_two_eq_zero_or_one n with h | h <;> simp [h]
  rw [shiftNumber, sgnField_eq, rndField_eq, dirField_eq, shamtField_eq, toNat_bit, toNat_bit, toNat_bit]
  omega

/-- The number of the fields decodes by these fields. -/
theorem decode_of_toNat_eq_shiftNumber {w : Word} {sgn rnd dir : Bool} {s : Nat} (hs : s < 16)
    (h : w.toNat = shiftNumber sgn rnd dir s) : decode w = decodeShiftForm sgn rnd dir s := by
  have hd := dir.toNat_lt
  have hr := rnd.toNat_lt
  have hg := sgn.toNat_lt
  have bit : ∀ (b : Bool) (n : Nat), n % 2 = b.toNat → decide (n % 2 = 1) = b := fun b n hn => by
    cases b <;> simp [hn]
  rw [shiftNumber] at h
  have hop : opField w = 5 := by rw [opField_eq]; omega
  have hrsv : rsvField w = 0 := by rw [rsvField_eq]; omega
  have hsh : shamtField w = s := by rw [shamtField_eq]; omega
  have hdir : dirField w = dir := by rw [dirField_eq]; exact bit _ _ (by omega)
  have hrnd : rndField w = rnd := by rw [rndField_eq]; exact bit _ _ (by omega)
  have hsgn : sgnField w = sgn := by rw [sgnField_eq]; exact bit _ _ (by omega)
  simp only [decode, hop, decodeShift, hrsv, if_true, hsgn, hrnd, hdir, hsh]

theorem number_of_decode {w : Word} {i : Instr} (h : decode w = .ok i) : w.toNat = i.number := by
  have fixed : ∀ j : Instr, decodeFixed w j = .ok i → opField w = j.number → w.toNat = i.number := by
    intro j hj hop
    obtain ⟨habove, rfl⟩ := (decodeFixed_ok_iff w j i).1 hj
    rw [opField_eq] at hop
    omega
  simp only [decode] at h
  split at h
  case h_1 hop | h_2 hop | h_3 hop | h_4 hop => exact fixed _ h hop
  case h_5 hop =>
    simp only [decodeShift] at h
    split at h
    · next hrsv => rw [number_of_decodeShiftForm h, ← toNat_eq_shiftNumber hop hrsv]
    · cases h
  case h_6 => cases h

theorem decode_of_number {w : Word} {i : Instr} (hi : i.wf = true) (h : w.toNat = i.number) : decode w = .ok i := by
  have fixed : ∀ j : Instr, w.toNat < 16 → decodeFixed w j = .ok j :=
    fun j hw => (decodeFixed_ok_iff w j j).2 ⟨by omega, rfl⟩
  cases i with
  | avg4 | avg8 | had8 | had16 =>
    rw [Instr.number] at h
    simp [decode, opField_eq, h, fixed]
  | shl s | shr s | shrr s | sra s | srar s =>
    exact decode_of_toNat_eq_shiftNumber (of_decide_eq_true hi) h

/-- The decoder, said once: a word decodes to the well-formed command whose number it is. -/
theorem decode_eq_ok_iff (w : Word) (i : Instr) : decode w = .ok i ↔ i.wf = true ∧ w.toNat = i.number :=
  ⟨fun h => ⟨Machine.decode_wf h, number_of_decode h⟩, fun ⟨hi, h⟩ => decode_of_number hi h⟩

theorem decode_encode {i : Instr} (h : i.wf = true) : decode (encode i) = .ok i :=
  decode_of_number h (encode_toNat h)

theorem encode_of_decode {w : Word} {i : Instr} (h : decode w = .ok i) : encode i = w := by
  apply BitVec.eq_of_toNat_eq
  rw [encode_toNat (Machine.decode_wf h), number_of_decode h]

theorem decodeBytes_bytesOfWord (w : Word) : decodeBytes (bytesOfWord w) = decode w := by
  rw [bytesOfWord, decodeBytes, wordOfBytes_bytesOfWord]

/-- Settles O2: the word of a command is its number, and the decoder reads the command from that. -/
theorem decodeOfEncode : Obligations.DecodeOfEncode := by
  intro i hi
  have hbytes : decodeBytes (bytesOfWord (encode i)) = .ok i := by rw [decodeBytes_bytesOfWord, decode_encode hi]
  refine ⟨decode_encode hi, hbytes, ?_⟩
  rw [decodeTableWord, Nat.mod_eq_of_lt (encode i).isLt, BitVec.ofNat_toNat, BitVec.setWidth_eq, hbytes]

/-- Settles O3: a word that decodes is the command's number, as its encoding is. -/
theorem encodeOfDecode : Obligations.EncodeOfDecode :=
  fun _ _ h => ⟨Machine.decode_wf h, encode_of_decode h⟩

/-- Settles O1, word by word. -/
theorem sampleWordsDecode : Obligations.SampleWordsDecode := by
  unfold Obligations.SampleWordsDecode
  decide

/-! ## The match and mask table (30_encoding R105) -/

/-- The row of the table that a command has. -/
def Instr.row : Instr → Row
  | .avg4 => ⟨"AVG4", 0x00000001, 0xFFFFFFFF⟩
  | .avg8 => ⟨"AVG8", 0x00000002, 0xFFFFFFFF⟩
  | .had8 => ⟨"HAD8", 0x00000003, 0xFFFFFFFF⟩
  | .had16 => ⟨"HAD16", 0x00000004, 0xFFFFFFFF⟩
  | .shl _ => ⟨"SHL", 0x00000105, 0xFFFFFF0F⟩
  | .shr _ => ⟨"SHR", 0x00000005, 0xFFFFFF0F⟩
  | .shrr _ => ⟨"SHRR", 0x00000205, 0xFFFFFF0F⟩
  | .sra _ => ⟨"SRA", 0x00000405, 0xFFFFFF0F⟩
  | .srar _ => ⟨"SRAR", 0x00000605, 0xFFFFFF0F⟩

theorem row_mem_commandTable (i : Instr) : i.row ∈ commandTable := by
  cases i <;> simp [Instr.row, commandTable]

theorem row_mnemonic (i : Instr) : i.row.mnemonic = i.mnemonic := by
  cases i <;> rfl

/-- The rows without a field match one word. -/
theorem isWord_fixed_iff (m : String) (fixed w : Word) : (Row.mk m fixed 0xFFFFFFFF).isWord w = true ↔ w = fixed := by
  have hmask : w &&& 0xFFFFFFFF = w := BitVec.and_allOnes
  simp only [Row.isWord, hmask, beq_iff_eq]

/-- The mask of the shifts clears SHAMT. -/
theorem and_shiftMask (w : Word) :
    w &&& 0xFFFFFF0F = w.extractLsb' 8 24 ++ (0#4 ++ w.extractLsb' 0 4) := by
  have hw : w.extractLsb' 8 24 ++ (w.extractLsb' 4 4 ++ w.extractLsb' 0 4) = w := by
    rw [BitVec.extractLsb'_append_extractLsb'_eq_extractLsb' (by decide),
      BitVec.extractLsb'_append_extractLsb'_eq_extractLsb' (by decide), BitVec.extractLsb'_eq_self]
  have hmask : (0xFFFFFF0F : Word) = BitVec.allOnes 24 ++ (0#4 ++ BitVec.allOnes 4) := by decide
  calc w &&& 0xFFFFFF0F
    _ = (w.extractLsb' 8 24 ++ (w.extractLsb' 4 4 ++ w.extractLsb' 0 4)) &&&
          (BitVec.allOnes 24 ++ (0#4 ++ BitVec.allOnes 4)) := by rw [hw, ← hmask]
    _ = w.extractLsb' 8 24 ++ (0#4 ++ w.extractLsb' 0 4) := by
      rw [BitVec.and_append, BitVec.and_append, BitVec.and_allOnes, BitVec.and_allOnes, BitVec.and_zero]

theorem and_shiftMask_toNat (w : Word) : (w &&& 0xFFFFFF0F).toNat = w.toNat / 256 * 256 + w.toNat % 16 := by
  have := w.isLt
  rw [and_shiftMask, BitVec.toNat_append, BitVec.toNat_append, BitVec.extractLsb'_toNat, BitVec.extractLsb'_toNat,
    BitVec.toNat_ofNat, Nat.zero_mod, Nat.zero_shiftLeft, Nat.zero_or, Nat.shiftRight_eq_div_pow, Nat.shiftLeft_eq,
    or_byte _ _ (by omega)]
  omega

/-- The rows of the shifts match the words that differ from `fixed` at most in SHAMT. -/
theorem isWord_shift_iff (m : String) (fixed w : Word) :
    (Row.mk m fixed 0xFFFFFF0F).isWord w = true ↔ w.toNat / 256 * 256 + w.toNat % 16 = fixed.toNat := by
  rw [Row.isWord, beq_iff_eq, ← BitVec.toNat_inj, and_shiftMask_toNat]

/-- A word that decodes matches the row of its command. -/
theorem isWord_of_decode {w : Word} {i : Instr} (h : decode w = .ok i) : i.row.isWord w = true := by
  obtain ⟨hi, hw⟩ := (decode_eq_ok_iff w i).1 h
  cases i with
  | avg4 | avg8 | had8 | had16 =>
    rw [Instr.row, isWord_fixed_iff]
    exact BitVec.eq_of_toNat_eq hw
  | shl s | shr s | shrr s | sra s | srar s =>
    have hs : s < 16 := of_decide_eq_true hi
    rw [Instr.row, isWord_shift_iff]
    simp only [Instr.number, shiftNumber, Bool.toNat_true, Bool.toNat_false] at hw
    simp only [BitVec.reduceToNat]
    omega

/-- A word that matches a row of the shifts is the number of the row's flags and of its own SHAMT. -/
theorem decode_of_isWord_shift {m : String} {fixed w : Word} (i : Nat → Instr)
    (hi : ∀ s < 16, (i s).wf = true ∧ (i s).number = fixed.toNat + 16 * s)
    (h : (Row.mk m fixed 0xFFFFFF0F).isWord w = true) : decode w = .ok (i (shamtField w)) := by
  obtain ⟨hwf, hnum⟩ := hi (shamtField w) (Machine.shamtField_lt w)
  rw [isWord_shift_iff] at h
  refine decode_of_number hwf ?_
  rw [hnum, shamtField_eq]
  omega

/-- A word that matches a row of the table is a command of that row. -/
theorem decode_of_isWord {w : Word} {r : Row} (hr : r ∈ commandTable) (h : r.isWord w = true) :
    ∃ i, decode w = .ok i ∧ i.row = r := by
  have fixed : ∀ i : Instr, i.wf = true → w = encode i → decode w = .ok i := fun i hi hw => hw ▸ decode_encode hi
  simp only [commandTable, List.mem_cons, List.not_mem_nil, or_false] at hr
  rcases hr with rfl | rfl | rfl | rfl | rfl | rfl | rfl | rfl | rfl
  · exact ⟨.avg4, fixed .avg4 rfl ((isWord_fixed_iff _ _ _).1 h), rfl⟩
  · exact ⟨.avg8, fixed .avg8 rfl ((isWord_fixed_iff _ _ _).1 h), rfl⟩
  · exact ⟨.had8, fixed .had8 rfl ((isWord_fixed_iff _ _ _).1 h), rfl⟩
  · exact ⟨.had16, fixed .had16 rfl ((isWord_fixed_iff _ _ _).1 h), rfl⟩
  · exact ⟨_, decode_of_isWord_shift .shl (by decide) h, rfl⟩
  · exact ⟨_, decode_of_isWord_shift .shr (by decide) h, rfl⟩
  · exact ⟨_, decode_of_isWord_shift .shrr (by decide) h, rfl⟩
  · exact ⟨_, decode_of_isWord_shift .sra (by decide) h, rfl⟩
  · exact ⟨_, decode_of_isWord_shift .srar (by decide) h, rfl⟩

/-- Settles O4: the rows are the commands' rows, and a word's command, hence its row, is one. -/
theorem decodeIsTheMatchMaskTable : Obligations.DecodeIsTheMatchMaskTable := by
  refine ⟨fun w i h => ?_, fun w r hr h => ?_, fun w r hr q hq h1 h2 => ?_, fun w h => ?_⟩
  · exact ⟨i.row, row_mem_commandTable i, isWord_of_decode h, row_mnemonic i⟩
  · obtain ⟨i, hd, rfl⟩ := decode_of_isWord hr h
    exact ⟨i, hd, (row_mnemonic i).symm⟩
  · obtain ⟨i, hi, rfl⟩ := decode_of_isWord hr h1
    obtain ⟨j, hj, rfl⟩ := decode_of_isWord hq h2
    rw [Except.ok.inj (hi.symm.trans hj)]
  · cases hd : decode w with
    | error x => exact ⟨x, rfl⟩
    | ok i => exact absurd (isWord_of_decode hd) (by simp [h i.row (row_mem_commandTable i)])

/-! ## Illegal words (30_encoding R107) -/

theorem decodeFixed_error_iff (w : Word) (i : Instr) : (∃ x, decodeFixed w i = .error x) ↔ w.toNat / 16 ≠ 0 := by
  simp only [decodeFixed, aboveOp_eq]
  split <;> simp_all

/-- Of the flags, only a left shift with RND or SGN is reserved (30_encoding R104). -/
theorem decodeShiftForm_error_iff (sgn rnd dir : Bool) (s : Nat) :
    (∃ x, decodeShiftForm sgn rnd dir s = .error x) ↔ dir = true ∧ (rnd = true ∨ sgn = true) := by
  simp only [decodeShiftForm]
  split <;> simp

theorem decodeShift_error_iff (w : Word) : (∃ x, decodeShift w = .error x) ↔
    w.toNat / 2048 ≠ 0 ∨ (dirField w = true ∧ (rndField w = true ∨ sgnField w = true)) := by
  rw [decodeShift, rsvField_eq]
  split
  · next h => simp only [decodeShiftForm_error_iff, h, ne_eq, not_true_eq_false, false_or]
  · next h => simp [h]

/-- The words that do not decode, by their OP field. -/
theorem decode_error_iff (w : Word) : (∃ x, decode w = .error x) ↔
    (opField w = 0 ∨ 6 ≤ opField w ∨ (1 ≤ opField w ∧ opField w ≤ 4 ∧ w.toNat / 16 ≠ 0) ∨
      (opField w = 5 ∧ (w.toNat / 2048 ≠ 0 ∨ (dirField w = true ∧ (rndField w = true ∨ sgnField w = true))))) := by
  simp only [decode]
  split
  case h_1 hop | h_2 hop | h_3 hop | h_4 hop => rw [decodeFixed_error_iff, hop]; simp
  case h_5 hop => rw [decodeShift_error_iff, hop]; simp
  case h_6 h1 h2 h3 h4 h5 =>
    have hop : opField w = 0 ∨ 6 ≤ opField w := by
      rw [imp_false] at h1 h2 h3 h4 h5
      omega
    exact iff_of_true ⟨_, rfl⟩ (hop.elim .inl fun h => .inr (.inl h))

end Sys2Proof

namespace Sys2Proof.Machine

open Sys2Proof

/-- Settles O5: the decoder's cases, then the command logic's. -/
theorem illegalWords : Obligations.IllegalWords := by
  refine ⟨decode_error_iff, fun s k e v x hi hk h hd => ?_⟩
  rw [step_cmd_write s k e v hi hk h]
  cases hb : e.busy with
  | true => exact writeCmd_busy _ _ _ _ ((busy_iff e).1 hb)
  | false => exact writeCmd_illegal _ _ _ _ x ((not_busy_iff e).1 hb) hd

/-! ## WAIT (30_encoding R110) -/

/-- Bit 0 of the value a STATUS read returns is BUSY. -/
theorem statusWord_odd_iff (e : Inst) : e.statusWord.toNat % 2 = 1 ↔ e.phase = .busy := by
  rw [← busy_iff, ← statusWord_bit_zero, BitVec.getLsbD, Nat.testBit_zero, decide_eq_true_eq]

/-- WAIT reads STATUS, and is the host's next step again while the unit is busy. -/
theorem hostWait_eq (s : State) (hi : s.Inv) (k : Nat) (e : Inst) (hk : s.insts[k]? = some e) (rest : List HostStep) :
    hostWait s e.base rest = .next { s with
      hostRead := e.statusWord.toNat
      host := if e.phase = .busy then .wait e.base :: rest else rest } := by
  rw [hostWait, hostLoad_slot { s with host := rest } hi k e hk .status]
  have hread : (e.readSlot .status).toNat % 2 = 1 ↔ e.phase = .busy := statusWord_odd_iff e
  simp only [hread]
  split <;> rfl

/-- Settles O41: the value read has BUSY in bit 0. -/
theorem waitReadsStatusUntilIdle : Obligations.WaitReadsStatusUntilIdle := by
  intro s k e hi hk h
  have hhost : .wait e.base :: s.host.tail = s.host := List.cons_head?_tail h.2
  rw [step_host_wait s e.base h, hostWait_eq s.turnUsed (turnUsed_inv s hi) k e hk, hhost]
  refine ⟨fun hb => ?_, fun hidle => ?_⟩
  · rw [if_pos hb]
    rfl
  · rw [if_neg (by simp [hidle])]
    rfl

/-! ## A command word placed in the latch (log 3) -/

theorem withFetchWord_of_decode {s : State} {e : Inst} {nbits w : Nat} {i : Instr} (he : s.insts[s.sel]? = some e)
    (hd : decodeTableWord nbits w = some i) : s.withFetchWord nbits w = { s with
      insts := s.insts.set s.sel { e with latch := e.latchFor i, phase := .busy, done := false }
      turns := .engine s.sel :: s.turns } := by
  simp [State.withFetchWord, he, hd]

/-- Settles O43: the engine of the selected unit moves next, and that unit is busy with the command. -/
theorem placedWordIsRunNext : Obligations.PlacedWordIsRunNext := by
  intro s e nbits w i he hd
  rw [withFetchWord_of_decode he hd]
  refine step_engine_busy _ s.sel { e with latch := e.latchFor i, phase := .busy, done := false } rfl ?_ rfl
  exact List.getElem?_set_self (List.getElem?_eq_some_iff.1 he).1

/-! ## RUN, from the CMD write to the end of the WAIT (30_encoding R110) -/

theorem mover_of_all_idle {s : State} (hturns : s.turns = []) (hidle : ∀ f ∈ s.insts, f.phase = .idle) :
    s.mover = .host := by
  have hnone : s.insts.findIdx? Inst.busy = none :=
    List.findIdx?_eq_none_iff.2 fun f hf => (not_busy_iff f).2 (hidle f hf)
  simp [State.mover, hturns, State.nextAgent, hnone]

/-- With no order fixed, the one busy unit moves (log 2). -/
theorem mover_of_one_busy {s : State} {k : Nat} {e f : Inst} {l : List Inst} (hturns : s.turns = [])
    (hidle : ∀ d ∈ l, d.phase = .idle) (hk : l[k]? = some e) (hins : s.insts = l.set k f) (hb : f.phase = .busy) :
    s.mover = .engine k := by
  obtain ⟨hlt, -⟩ := List.getElem?_eq_some_iff.1 hk
  have hfirst : (l.set k f).findIdx? Inst.busy = some k := by
    refine List.findIdx?_eq_some_iff_getElem.2 ⟨by simpa using hlt, by simpa using (busy_iff f).2 hb, fun j hj => ?_⟩
    rw [List.getElem_set_ne (by omega), Bool.not_eq_true, not_busy_iff]
    exact hidle _ (List.getElem_mem _)
  simp [State.mover, hturns, State.nextAgent, hins, hfirst]

/-- No ownership stands in the way of the one busy unit. -/
theorem ownershipOk_of_one_busy {s : State} {k : Nat} {f : Inst} {l : List Inst} (i : Instr) (L : Latch)
    (hidle : ∀ d ∈ l, d.phase = .idle) (hins : s.insts = l.set k f) : s.ownershipOk k i L := by
  intro j d hj hjk hb
  rw [hins, List.getElem?_set_ne (Ne.symm hjk)] at hj
  have hd := (not_busy_iff d).2 (hidle d (List.mem_of_getElem? hj))
  simp [hd] at hb

/-- With no order fixed, the next step completes the command of the one busy unit. -/
theorem step_completes_one_busy {s : State} {k : Nat} {e f : Inst} {l : List Inst} (hturns : s.turns = [])
    (hidle : ∀ d ∈ l, d.phase = .idle) (hk : l[k]? = some e) (hins : s.insts = l.set k f) (hb : f.phase = .busy)
    (hp : preFault s.memAdmit f.latch.op f.latch = none) :
    ∃ t g, exec f.latch.op { s with sel := k } = .next t ∧ step s = .next t ∧ t.insts = l.set k g ∧
      CompletedAs f.latch.op { s with sel := k } t f g := by
  have hf : s.insts[k]? = some f := hins ▸ List.getElem?_set_self (List.getElem?_eq_some_iff.1 hk).1
  have hstep : step s = exec f.latch.op { s with sel := k } := by
    rw [step_engine_busy s k f (mover_of_one_busy hturns hidle hk hins hb) hf hb]
    simp [State.turnUsed, hturns]
  obtain ⟨t, ht⟩ := exec_of_ok f.latch.op { s with sel := k } f hf hp (ownershipOk_of_one_busy _ _ hidle hins)
  obtain ⟨d, g, hd, -, -, hc⟩ := exec_next _ _ _ ht
  obtain rfl : f = d := Option.some.inj (hf.symm.trans hd)
  exact ⟨t, g, ht, hstep.trans ht, by rw [hc.insts_eq, hins, List.set_set], hc⟩

/-- The machine once RUN's CMD write of command `i` to unit k is accepted (10_state R45); WAIT is the host's next. -/
def State.runAccepted (s : State) (k : Nat) (e : Inst) (i : Instr) (rest : List HostStep) : State :=
  { s with
    host := .wait e.base :: rest
    insts := s.insts.set k { e with latch := e.latchFor i, phase := .busy, done := false } }

theorem step_run_accepts {s : State} {k : Nat} {e : Inst} {i : Instr} {rest : List HostStep} (hi : s.Inv)
    (hk : s.insts[k]? = some e) (hturns : s.turns = []) (hidle : ∀ f ∈ s.insts, f.phase = .idle)
    (hhost : s.host = hostRun e.base i ++ rest) (hwf : i.wf = true)
    (hp : preFault s.memAdmit i (e.latchFor i) = none) : step s = .next (s.runAccepted k e i rest) := by
  have hnext : s.hostNext (.write e.base 4 (encode i).toNat) := ⟨mover_of_all_idle hturns hidle, by rw [hhost]; rfl⟩
  have hd : decode (BitVec.ofNat 32 (encode i).toNat) = .ok i := by
    rw [BitVec.ofNat_toNat, BitVec.setWidth_eq, decode_encode hwf]
  rw [step_cmd_write s k e _ hi hk hnext, writeCmd_legal _ _ _ _ i (hidle e (List.mem_of_getElem? hk)) hd,
    accept_of_ok s.hostUsed k e i hp]
  simp [State.hostUsed, State.setUnit, State.runAccepted, hhost, hostRun, hturns]

/-- With no order fixed and no unit busy, a WAIT ends in one step. -/
theorem step_wait_ends {s : State} {k : Nat} {e : Inst} {rest : List HostStep} (hi : s.Inv)
    (hk : s.insts[k]? = some e) (hturns : s.turns = []) (hidle : ∀ f ∈ s.insts, f.phase = .idle)
    (hhost : s.host = .wait e.base :: rest) :
    step s = .next { s with host := rest, hostRead := e.statusWord.toNat } := by
  have hnext : s.hostNext (.wait e.base) := ⟨mover_of_all_idle hturns hidle, by rw [hhost]; rfl⟩
  rw [(waitReadsStatusUntilIdle s k e hi hk hnext).2 (hidle e (List.mem_of_getElem? hk))]
  simp [State.hostUsed, hturns, hhost]

/-- STATUS after a completion: BUSY 0, DONE 1, and the two sticky flags (10_state R35, R47). -/
theorem CompletedAs.statusWord_toNat {i : Instr} {s t : State} {e f : Inst} (h : CompletedAs i s t e f) :
    f.statusWord.toNat = 2 + (if e.illegal then 4 else 0) + (if e.collide then 8 else 0) := by
  simp [Machine.statusWord_toNat, h.phase_eq, h.done_eq, h.illegal_eq, h.collide_eq]

theorem core_run_succ {s t : State} (h : step s = .next t) (n : Nat) :
    Sys2Proof.core.run (n + 1) s = Sys2Proof.core.run n t := by
  simp [Host.Core.run, Sys2Proof.core, h]

/-- Settles O47: acceptance, completion of the one busy unit, and a WAIT on an idle machine. -/
theorem runCompletesAndWaitEnds : Obligations.RunCompletesAndWaitEnds := by
  intro s k e i rest hi hk hturns hidle hhost hwf hp
  have haccept := step_run_accepts hi hk hturns hidle hhost hwf hp
  obtain ⟨t, g, hexec, hcomplete, hins, hc⟩ :=
    step_completes_one_busy (s := s.runAccepted k e i rest) hturns hidle hk rfl rfl hp
  have hinv : t.Inv := stepKeepsTheInvariant _ _ (stepKeepsTheInvariant _ _ hi haccept) hcomplete
  have hg : t.insts[k]? = some g := hins ▸ List.getElem?_set_self (List.getElem?_eq_some_iff.1 hk).1
  have htidle : ∀ d ∈ t.insts, d.phase = .idle := fun d hd =>
    (List.mem_or_eq_of_mem_set (hins ▸ hd)).elim (hidle d) fun hdg => hdg ▸ hc.phase_eq
  have htturns : t.turns = [] := (congrArg State.turns hc.state).trans hturns
  have hthost : t.host = .wait g.base :: rest := by rw [hc.base_eq]; exact congrArg State.host hc.state
  have hwait := step_wait_ends hinv hg htturns htidle hthost
  rw [hc.statusWord_toNat] at hwait
  refine ⟨t, ?_, hexec, ?_⟩
  · rw [core_run_succ haccept, core_run_succ hcomplete]
    rfl
  · rw [core_run_succ haccept, core_run_succ hcomplete, core_run_succ hwait]
    rfl

end Sys2Proof.Machine
end

section
/-! Family 40_shift_unit: the five shift commands. What RESULT gets is an integer that fits in 16 bits, so `wrap16` keeps
its value; the rest of the completion is `completion_shift`. -/

namespace Sys2Proof.Machine

open Sys2Proof

/-! ## The width functions on values that fit -/

/-- The unsigned value of a wrapped natural number. -/
theorem toNat_wrap16_natCast (n : Nat) : (wrap16 n).toNat = n % 2 ^ 16 := by
  rw [wrap16, BitVec.ofInt_natCast, BitVec.toNat_ofNat]

/-- A value that fits in 16 bits unsigned is not changed by wrap16. -/
theorem zext_wrap16 (v : Int) (h0 : 0 ≤ v) (h1 : v < 65536) : (zext (wrap16 v) : Int) = v := by
  lift v to Nat using h0
  rw [zext, toNat_wrap16_natCast]
  omega

/-! ## The rounding constant (R131) -/

theorem roundConst_nonneg (s : Nat) : 0 ≤ roundConst s := by
  cases s with
  | zero => exact le_rfl
  | succ t => exact (pow_pos two_pos t).le

theorem roundConst_lt (s : Nat) : roundConst s < 2 ^ s := by
  cases s with
  | zero => exact one_pos
  | succ t => exact pow_lt_pow_right₀ one_lt_two t.lt_succ_self

/-- rc(s) as a natural number, in one expression. -/
theorem roundConst_eq_natCast (s : Nat) : roundConst s = ((if s = 0 then 0 else 2 ^ (s - 1) : Nat) : Int) := by
  cases s with
  | zero => rfl
  | succ t => simp [roundConst]

/-- rc(s) / 2^s is one half, and 0 where nothing is shifted out. -/
theorem roundConst_div_two_pow (s : Nat) : (roundConst s : ℚ) / 2 ^ s = if s = 0 then 0 else 1 / 2 := by
  cases s with
  | zero => simp [roundConst]
  | succ t =>
    rw [if_neg t.succ_ne_zero, roundConst, pow_succ]
    push_cast
    field_simp

/-! ## Right shifts stay in range (R130, R131) -/

/-- Adding less than 2^s before a right shift by s keeps any range around 0 that the value was in. -/
theorem shrFloor_add_mem_Ico {a b v c : Int} {s : Nat} (ha : a ≤ 0) (hb : 0 < b) (hv : v ∈ Set.Ico a b)
    (hc : c ∈ Set.Ico 0 (2 ^ s)) : shrFloor (v + c) s ∈ Set.Ico a b := by
  obtain ⟨hav, hvb⟩ := hv
  obtain ⟨hc0, hcs⟩ := hc
  have hpow : (0 : Int) < 2 ^ s := pow_pos two_pos s
  constructor
  · have hlow : a * 2 ^ s ≤ a := by nlinarith
    exact (Int.le_ediv_iff_mul_le hpow).2 (by linarith)
  · have hhigh : b + 2 ^ s ≤ b * 2 ^ s + 1 := by nlinarith
    exact (Int.ediv_lt_iff_lt_mul hpow).2 (by linarith)

theorem shrFloor_mem_Ico {a b v : Int} (s : Nat) (ha : a ≤ 0) (hb : 0 < b) (hv : v ∈ Set.Ico a b) :
    shrFloor v s ∈ Set.Ico a b := by
  simpa using shrFloor_add_mem_Ico ha hb hv ⟨le_rfl, pow_pos two_pos s⟩

theorem shrRound_mem_Ico {a b v : Int} (s : Nat) (ha : a ≤ 0) (hb : 0 < b) (hv : v ∈ Set.Ico a b) :
    shrRound v s ∈ Set.Ico a b :=
  shrFloor_add_mem_Ico ha hb hv ⟨roundConst_nonneg s, roundConst_lt s⟩

/-- The unsigned value of an operand, in the range of 16 bits. -/
theorem zext_mem_Ico (x : Half) : (zext x : Int) ∈ Set.Ico 0 65536 := ⟨Int.natCast_nonneg _, Int.ofNat_lt.2 x.isLt⟩

/-- The signed value of an operand, in the range of 16 bits. -/
theorem sext16_mem_Ico (x : Half) : sext16 x ∈ Set.Ico (-32768) 32768 :=
  ⟨(sext16_bounds x).1, Int.lt_add_one_of_le (sext16_bounds x).2⟩

/-! ## Right shifts as floors of rationals (R130, R131) -/

theorem shrFloor_eq_floor (v : Int) (s : Nat) : shrFloor v s = ⌊(v : ℚ) / 2 ^ s⌋ := by
  have h := Rat.floor_intCast_div_natCast v (2 ^ s)
  push_cast at h
  exact h.symm

/-- Rounding half up is the floor one half higher. -/
theorem shrRound_eq_floor (v : Int) (s : Nat) :
    shrRound v s = ⌊(v : ℚ) / 2 ^ s + (if s = 0 then 0 else 1 / 2)⌋ := by
  rw [shrRound, shrFloor_eq_floor, Int.cast_add, add_div, roundConst_div_two_pow]

/-! ## What RESULT gets (R135 to R139) -/

theorem toNat_shlWrap16 (x : Half) (s : Nat) : (shlWrap16 (zext x) s).toNat = x.toNat * 2 ^ s % 2 ^ 16 := by
  rw [← toNat_wrap16_natCast, shlWrap16, zext]
  push_cast
  rfl

theorem toNat_wrap16_shrFloor (x : Half) (s : Nat) : (wrap16 (shrFloor (zext x) s)).toNat = x.toNat / 2 ^ s := by
  obtain ⟨hlow, hhigh⟩ := shrFloor_mem_Ico s le_rfl (by decide) (zext_mem_Ico x)
  have hval : ((wrap16 (shrFloor (zext x) s)).toNat : Int) = x.toNat / 2 ^ s := zext_wrap16 _ hlow hhigh
  exact_mod_cast hval

theorem toNat_wrap16_shrRound (x : Half) (s : Nat) :
    (wrap16 (shrRound (zext x) s)).toNat = (x.toNat + (if s = 0 then 0 else 2 ^ (s - 1))) / 2 ^ s := by
  obtain ⟨hlow, hhigh⟩ := shrRound_mem_Ico s le_rfl (by decide) (zext_mem_Ico x)
  have hval : ((wrap16 (shrRound (zext x) s)).toNat : Int) = (x.toNat + roundConst s) / 2 ^ s :=
    zext_wrap16 _ hlow hhigh
  rw [roundConst_eq_natCast] at hval
  exact_mod_cast hval

theorem toInt_wrap16_shrFloor (x : Half) (s : Nat) :
    (wrap16 (shrFloor (sext16 x) s)).toInt = ⌊(x.toInt : ℚ) / 2 ^ s⌋ := by
  obtain ⟨hlow, hhigh⟩ := shrFloor_mem_Ico s (by decide) (by decide) (sext16_mem_Ico x)
  exact (sext16_wrap16 _ hlow hhigh).trans (shrFloor_eq_floor _ s)

theorem toInt_wrap16_shrRound (x : Half) (s : Nat) :
    (wrap16 (shrRound (sext16 x) s)).toInt = ⌊(x.toInt : ℚ) / 2 ^ s + (if s = 0 then 0 else 1 / 2)⌋ := by
  obtain ⟨hlow, hhigh⟩ := shrRound_mem_Ico s (by decide) (by decide) (sext16_mem_Ico x)
  exact (sext16_wrap16 _ hlow hhigh).trans (shrRound_eq_floor _ s)

/-! ## The five commands

The word is `shiftWord` of the fixed bits, and the whole next state is that of `completion_shift` with `shiftEffect_eq`. -/

/-- Settles O6: what wraps is the natural number x · 2^s. -/
theorem shlShiftsLeftWrapping : Obligations.ShlShiftsLeftWrapping := fun s e sh he _ =>
  ⟨rfl, _, toNat_shlWrap16 e.latch.operand sh, completion_shift (.shl sh) s _ e sh he (by simp)⟩

/-- Settles O7: the quotient is no greater than the operand, so nothing wraps. -/
theorem shrShiftsRightLogical : Obligations.ShrShiftsRightLogical := fun s e sh he _ =>
  ⟨rfl, _, toNat_wrap16_shrFloor e.latch.operand sh, completion_shift (.shr sh) s _ e sh he (by simp)⟩

/-- Settles O8: the sum may need 17 bits, its shifted value does not. -/
theorem shrrRoundsHalfUp : Obligations.ShrrRoundsHalfUp := fun s e sh he _ =>
  ⟨rfl, _, toNat_wrap16_shrRound e.latch.operand sh, completion_shift (.shrr sh) s _ e sh he (by simp)⟩

/-- Settles O9: integer division by 2^s is the floor of the rational, within the signed range. -/
theorem sraShiftsRightArithmetic : Obligations.SraShiftsRightArithmetic := fun s e sh he _ =>
  ⟨rfl, _, toInt_wrap16_shrFloor e.latch.operand sh, completion_shift (.sra sh) s _ e sh he (by simp)⟩

/-- Settles O10: the added rc(s) is one half of 2^s, and the rounded value stays within the signed range. -/
theorem srarRoundsHalfUp : Obligations.SrarRoundsHalfUp := fun s e sh he _ =>
  ⟨rfl, _, toInt_wrap16_shrRound e.latch.operand sh, completion_shift (.srar sh) s _ e sh he (by simp)⟩

end Sys2Proof.Machine
end

section
/-! Family 41_block_average: AVG4 and AVG8 as one command with a size. The 16-bit accumulator never wraps, so its value
is the sum of the samples, and RESULT is that sum divided by N², rounded half up. -/

namespace Sys2Proof.Machine

open Sys2Proof

/-! ## The sum of the samples (R160, R163) -/

/-- The exact sum of the samples of an n×n block. -/
def sampleSum (m : Memory) (L : Latch) (n : Nat) : Nat :=
  ∑ r ∈ Finset.range n, ∑ c ∈ Finset.range n, (sample m L r c).toNat

theorem foldl_range_add {M : Type} [AddCommMonoid M] (f : Nat → M) (n : Nat) (a : M) :
    (List.range n).foldl (fun acc k => acc + f k) a = a + ∑ k ∈ Finset.range n, f k := by
  induction n with
  | zero => simp
  | succ n ih => rw [List.range_succ, List.foldl_concat, ih, Finset.sum_range_succ, add_assoc]

/-- The accumulator is the sum of the samples, reduced to 16 bits once. -/
theorem accumulate_eq_natCast (m : Memory) (L : Latch) (n : Nat) : accumulate m L n = (sampleSum m L n : Half) := by
  simp only [accumulate, gridPositions, List.foldl_flatMap, List.foldl_map, foldl_range_add, zero_add, sampleSum,
    Nat.cast_sum, BitVec.natCast_eq_ofNat, BitVec.ofNat_toNat]

/-- A sample is at most 255. -/
theorem sampleSum_le (m : Memory) (L : Latch) (n : Nat) : sampleSum m L n ≤ n * n * 255 := by
  have hbyte : ∀ r c, (sample m L r c).toNat ≤ 255 := fun r c => Nat.le_of_lt_succ (sample m L r c).isLt
  calc sampleSum m L n ≤ ∑ _r ∈ Finset.range n, ∑ _c ∈ Finset.range n, 255 :=
        Finset.sum_le_sum fun r _ => Finset.sum_le_sum fun c _ => hbyte r c
    _ = n * n * 255 := by simp [mul_assoc]

theorem sampleSum_uniform {m : Memory} {L : Latch} {n : Nat} {v : Byte}
    (h : ∀ r < n, ∀ c < n, sample m L r c = v) : sampleSum m L n = n * n * v.toNat := by
  calc sampleSum m L n = ∑ _r ∈ Finset.range n, ∑ _c ∈ Finset.range n, v.toNat :=
        Finset.sum_congr rfl fun r hr => Finset.sum_congr rfl fun c hc => by
          rw [h r (Finset.mem_range.1 hr) c (Finset.mem_range.1 hc)]
    _ = n * n * v.toNat := by simp [mul_assoc]

/-- The accumulator never wraps: even 16 rows of 16 samples would fit in its 16 bits (R163). -/
theorem toNat_accumulate (m : Memory) (L : Latch) {n : Nat} (hn : n ≤ 16) :
    (accumulate m L n).toNat = sampleSum m L n := by
  have hsum := sampleSum_le m L n
  have hsize : n * n ≤ 16 * 16 := Nat.mul_le_mul hn hn
  rw [accumulate_eq_natCast, BitVec.natCast_eq_ofNat, BitVec.toNat_ofNat, Nat.mod_eq_of_lt (by omega)]

/-! ## The two sizes (R161, R162, R167) -/

/-- An average, with N and log2(N · N). -/
inductive IsAverage : Instr → Nat → Nat → Prop where
  | avg4 : IsAverage .avg4 4 4
  | avg8 : IsAverage .avg8 8 6

theorem exists_isAverage {i : Instr} {n : Nat} (h : (i = .avg4 ∧ n = 4) ∨ (i = .avg8 ∧ n = 8)) :
    ∃ sh, IsAverage i n sh := by
  rcases h with ⟨rfl, rfl⟩ | ⟨rfl, rfl⟩
  · exact ⟨4, .avg4⟩
  · exact ⟨6, .avg8⟩

namespace IsAverage

variable {i : Instr} {n sh : Nat}

theorem exec_eq (h : IsAverage i n sh) (s : State) : exec i s = completion i s (averageEffect n sh s) := by
  cases h <;> rfl

theorem size_le (h : IsAverage i n sh) : n ≤ 16 := by cases h <;> decide

/-! ### Preconditions -/

theorem alignedOk_eq (h : IsAverage i n sh) (L : Latch) : alignedOk i L = true := by cases h <;> rfl

theorem minStride_eq (h : IsAverage i n sh) : minStride i = n := by cases h <;> rfl

theorem strideOk_of_le (h : IsAverage i n sh) {L : Latch} (hs : n ≤ L.stride.toNat) : strideOk i L = true := by
  rw [strideOk, h.minStride_eq, decide_eq_true hs]

theorem mem_inputBytes_iff (h : IsAverage i n sh) (L : Latch) (a : Nat) :
    a ∈ inputBytes i L ↔ ∃ r < n, ∃ c < n, a = L.sampleAddr r c := by
  rw [mem_inputBytes]
  cases h with
  | avg4 => exact mem_sampleBytes 4 L a
  | avg8 => exact mem_sampleBytes 8 L a

theorem outputBytes_eq (h : IsAverage i n sh) (L : Latch) : outputBytes i L = [] := by cases h <;> rfl

/-- Of the accesses of an average, only its samples have to be in memory. -/
theorem boundsOk_iff_samples (h : IsAverage i n sh) (memAdmit : List Region) (L : Latch) :
    boundsOk memAdmit i L = true ↔ ∀ r < n, ∀ c < n, admits memAdmit (L.sampleAddr r c) = true := by
  simp only [boundsOk_iff, h.mem_inputBytes_iff, h.outputBytes_eq, List.not_mem_nil, or_false]
  constructor
  · exact fun hall r hr c hc => hall _ ⟨r, hr, c, hc, rfl⟩
  · rintro hall _ ⟨r, hr, c, hc, rfl⟩
    exact hall r hr c hc

theorem accept_narrow (h : IsAverage i n sh) (s : State) (k : Nat) (e : Inst) (hs : e.stride.toNat < n) :
    accept s k e i = .fault (.mf3 (e.latchFor i)) := by
  have hstride : strideOk i (e.latchFor i) = false := (strideOk_eq_false_iff _ _).2 (by rwa [h.minStride_eq])
  exact accept_of_preFault _ _ _ _ _ (preFault_narrow _ _ _ (h.alignedOk_eq _) hstride)

theorem accept_outside (h : IsAverage i n sh) (s : State) (k : Nat) (e : Inst) (hs : n ≤ e.stride.toNat)
    (hout : ∃ r < n, ∃ c < n, admits s.memAdmit ((e.latchFor i).sampleAddr r c) = false) :
    accept s k e i = .fault (.mf1 (e.latchFor i)) := by
  have hbounds : boundsOk s.memAdmit i (e.latchFor i) = false := by
    obtain ⟨r, hr, c, hc, hno⟩ := hout
    refine Bool.eq_false_iff.2 fun hall => ?_
    exact Bool.eq_false_iff.1 hno ((h.boundsOk_iff_samples _ _).1 hall r hr c hc)
  exact accept_of_preFault _ _ _ _ _
    (preFault_outside _ _ _ (h.alignedOk_eq _) (h.strideOk_of_le (L := e.latchFor i) hs) hbounds)

/-! ### Completion -/

theorem completes (h : IsAverage i n sh) {s : State} {e : Inst} (he : s.insts[s.sel]? = some e)
    (hs : n ≤ e.latch.stride.toNat) (hin : ∀ r < n, ∀ c < n, admits s.memAdmit (e.latch.sampleAddr r c) = true)
    (ho : s.ownershipOk s.sel i e.latch) : exec i s = .next (averageEffect n sh s e) := by
  have hpre : preFault s.memAdmit i e.latch = none :=
    (preFault_eq_none_iff _ _ _).2 ⟨h.alignedOk_eq _, h.strideOk_of_le hs, (h.boundsOk_iff_samples _ _).2 hin⟩
  rw [h.exec_eq, completion_of_ok i s _ e he hpre ho]

/-- What ACC and RESULT hold after a completed average. -/
theorem acc_and_result (h : IsAverage i n sh) {s t : State} {e f : Inst} (he : s.insts[s.sel]? = some e)
    (hx : exec i s = .next t) (hf : t.insts[s.sel]? = some f) :
    f.acc = accumulate s.mem e.latch n ∧ f.result = wrap16 (shrRound (zext (accumulate s.mem e.latch n)) sh) := by
  rw [h.exec_eq] at hx
  obtain ⟨e', he', -, -, rfl⟩ := completion_next _ _ _ _ hx
  obtain rfl : e = e' := Option.some.inj (he.symm.trans he')
  rw [averageEffect_eq] at hf
  obtain rfl := getElem?_set_of_some _ he hf
  exact ⟨rfl, rfl⟩

/-- RESULT is the sum and half the divisor, divided by N² (R160). -/
theorem toNat_rounded (h : IsAverage i n sh) (m : Memory) (L : Latch) :
    (wrap16 (shrRound (zext (accumulate m L n)) sh)).toNat = (sampleSum m L n + n * n / 2) / (n * n) := by
  rw [toNat_wrap16_shrRound, toNat_accumulate m L h.size_le]
  cases h <;> rfl

end IsAverage

/-! ## The statements -/

/-- Settles O11: the average of size 4. -/
theorem avg4IsTheRoundedMean : Obligations.Avg4IsTheRoundedMean :=
  ⟨rfl, fun s e he hs hin ho => ⟨_, _, IsAverage.avg4.toNat_rounded s.mem e.latch, IsAverage.avg4.completes he hs hin ho⟩,
    IsAverage.avg4.accept_narrow, IsAverage.avg4.accept_outside⟩

/-- Settles O12: the average of size 8. -/
theorem avg8IsTheRoundedMean : Obligations.Avg8IsTheRoundedMean :=
  ⟨rfl, fun s e he hs hin ho => ⟨_, _, IsAverage.avg8.toNat_rounded s.mem e.latch, IsAverage.avg8.completes he hs hin ho⟩,
    IsAverage.avg8.accept_narrow, IsAverage.avg8.accept_outside⟩

/-- Settles O13: 64 samples of 255 fit in 16 bits. -/
theorem accumulatorHoldsTheExactSum : Obligations.AccumulatorHoldsTheExactSum := by
  intro s t e f i n hi he hx hf
  obtain ⟨sh, h⟩ := exists_isAverage hi
  obtain ⟨hacc, -⟩ := h.acc_and_result he hx hf
  rw [hacc]
  exact toNat_accumulate s.mem e.latch h.size_le

/-- Settles O14: N² · 255 is the greatest sum and N² · v that of a uniform block, and half of N² more does not reach the
next multiple of N². -/
theorem averageInRangeAndExactOnUniformBlocks : Obligations.AverageInRangeAndExactOnUniformBlocks := by
  intro s t e f i n hi he hx hf
  obtain ⟨sh, h⟩ := exists_isAverage hi
  obtain ⟨-, hresult⟩ := h.acc_and_result he hx hf
  have hvalue : f.result.toNat = (sampleSum s.mem e.latch n + n * n / 2) / (n * n) := by
    rw [hresult, h.toNat_rounded]
  have hrange : f.result.toNat ≤ 255 := by
    have hsum := sampleSum_le s.mem e.latch n
    cases h <;> omega
  refine ⟨hrange, ?_, fun v hv => ?_⟩
  · have hread : (f.readSlot .result).toNat = f.result.toNat := toNat_zeroExtend_half f.result
    omega
  · have hsum := sampleSum_uniform (L := e.latch) hv
    cases h <;> omega

end Sys2Proof.Machine
end

section
/-! Family 42_hadamard8x8: the order-8 butterfly and HAD8. In the ring of 16-bit patterns the butterfly is the product
with the matrix H8, so that linearity, double application and impulse response are facts about H8; HAD8 as a command
stores that product at addresses that do not overlap. -/

namespace Sys2Proof.Machine

open Sys2Proof

/-! ## The stages commute (42_hadamard8x8 R181) -/

/-- Index `k` with the bit of span `h` cleared: the lower place of the pair that the stage of span `h` puts `k` in. -/
def clearBit (h k : Nat) : Nat := k - k / h % 2 * h

/-- A stage adds at the lower place of a pair and subtracts at the upper one. -/
theorem bfStage_eq {h : Nat} (hh : h ∈ [1, 2, 4]) (a : Nat → Half) (k : Nat) :
    bfStage h a k = a (clearBit h k) + (-1) ^ (k / h % 2) * a (clearBit h k + h) := by
  obtain ⟨i, rfl⟩ : ∃ i, h = 2 ^ i := by
    fin_cases hh
    exacts [⟨0, rfl⟩, ⟨1, rfl⟩, ⟨2, rfl⟩]
  rw [bfStage, Nat.and_two_pow, Nat.testBit_eq_decide_div_mod_eq, clearBit]
  obtain hbit | hbit := Nat.mod_two_eq_zero_or_one (k / 2 ^ i)
  · simp [hbit]
  · have hle : 2 ^ i ≤ k := by
      by_contra hlt
      simp [Nat.div_eq_of_lt (not_le.1 hlt)] at hbit
    simp only [hbit, one_mul, decide_true, Bool.toNat_true, (Nat.two_pow_pos i).ne', if_false, pow_one, neg_one_mul,
      Nat.sub_add_cancel hle, sub_eq_add_neg]

/-- The stages of two spans act on different bits of the index. -/
theorem clearBit_apart {g h : Nat} (hg : g ∈ [1, 2, 4]) (hh : h ∈ [1, 2, 4]) (hgh : g ≠ h) (k : Nat) :
    clearBit g k / h % 2 = k / h % 2 ∧ (clearBit g k + g) / h % 2 = k / h % 2 ∧
      clearBit h (clearBit g k) = clearBit g (clearBit h k) ∧
      clearBit h (clearBit g k + g) = clearBit g (clearBit h k) + g := by
  simp only [clearBit]
  fin_cases hg <;> fin_cases hh <;> simp only [ne_eq, not_true_eq_false] at hgh ⊢ <;> omega

theorem bfStage_comm {g h : Nat} (hg : g ∈ [1, 2, 4]) (hh : h ∈ [1, 2, 4]) (a : Nat → Half) (k : Nat) :
    bfStage g (bfStage h a) k = bfStage h (bfStage g a) k := by
  obtain rfl | hgh := eq_or_ne g h
  · rfl
  obtain ⟨hbit, hbit', hclear, hclear'⟩ := clearBit_apart hg hh hgh k
  obtain ⟨gbit, gbit', -, gclear'⟩ := clearBit_apart hh hg hgh.symm k
  simp only [bfStage_eq hg, bfStage_eq hh, hbit, hbit', hclear, hclear', gbit, gbit', gclear',
    Nat.add_right_comm _ g h]
  ring

/-! ## The butterfly is the product with H8 (42_hadamard8x8 R181) -/

theorem wrap16_sum (n : Nat) (f : Nat → Int) : wrap16 (∑ j ∈ Finset.range n, f j) = ∑ j ∈ Finset.range n, wrap16 (f j) :=
  Int.cast_sum _ _

/-- The sign of an element of H8 is the product of the signs of the three bits (00_scope R12). -/
theorem walsh_eq_bits : ∀ k < 8, ∀ j < 8,
    walsh k j = (-1) ^ (k % 2 * (j % 2)) * (-1) ^ (k / 2 % 2 * (j / 2 % 2)) * (-1) ^ (k / 4 * (j / 4)) := by
  decide

theorem wrap16_one_mul (x : Half) : wrap16 1 * x = x := one_mul x

theorem wrap16_neg_one_mul (x : Half) : wrap16 (-1) * x = -x := neg_one_mul x

theorem bf8_eq_sum (a : Nat → Half) {k : Nat} (hk : k < 8) :
    bf8 a k = ∑ j ∈ Finset.range 8, wrap16 (walsh k j) * a j := by
  interval_cases k <;>
    simp [bf8, bfStage, Finset.sum_range_succ, walsh_eq_bits, wrap16_one_mul, wrap16_neg_one_mul] <;> ring

/-- H8 · H8 = 8 · I. -/
theorem walsh_orthogonal : ∀ k < 8, ∀ i < 8,
    ∑ j ∈ Finset.range 8, walsh k j * walsh j i = if k = i then 8 else 0 := by
  decide

theorem walsh_orthogonal_wrap16 {k i : Nat} (hk : k < 8) (hi : i < 8) :
    ∑ j ∈ Finset.range 8, wrap16 (walsh k j) * wrap16 (walsh j i) = if k = i then 8 else 0 := by
  simp only [← wrap16_mul, ← wrap16_sum, walsh_orthogonal k hk i hi]
  split <;> rfl

theorem bf8_bf8 (a : Nat → Half) {k : Nat} (hk : k < 8) : bf8 (bf8 a) k = 8 * a k := by
  calc bf8 (bf8 a) k
      = ∑ j ∈ Finset.range 8, ∑ i ∈ Finset.range 8, wrap16 (walsh k j) * wrap16 (walsh j i) * a i := by
        rw [bf8_eq_sum _ hk]
        refine Finset.sum_congr rfl fun j hj => ?_
        simp only [bf8_eq_sum a (Finset.mem_range.1 hj), Finset.mul_sum, mul_assoc]
    _ = ∑ i ∈ Finset.range 8, (if k = i then 8 else 0) * a i := by
        rw [Finset.sum_comm]
        refine Finset.sum_congr rfl fun i hi => ?_
        rw [← Finset.sum_mul, walsh_orthogonal_wrap16 hk (Finset.mem_range.1 hi)]
    _ = 8 * a k := by simp only [ite_mul, zero_mul, Finset.sum_ite_eq, Finset.mem_range, hk, if_true]

/-- Settles O15: the product with H8, H8 · H8 = 8 · I, and stages on different bits of the index. -/
theorem bf8IsTheWalshTransform : Obligations.Bf8IsTheWalshTransform := by
  intro a k hk
  refine ⟨?_, ?_, fun g hg h hh => bfStage_comm hg hh a k⟩
  · simp only [bf8_eq_sum a hk, wrap16_sum, wrap16_mul, wrap16_sext16]
  · rw [bf8_bf8 a hk, wrap16_mul, wrap16_sext16]
    rfl

/-! ## The 8×8 transform (42_hadamard8x8 R183 to R188) -/

/-- The product H8 · X · H8 in the ring of 16-bit patterns. -/
theorem had8Grid_eq_sum (x : Nat → Nat → Half) {u v : Nat} (hu : u < 8) (hv : v < 8) :
    had8Grid x u v = ∑ r ∈ Finset.range 8, ∑ c ∈ Finset.range 8, wrap16 (walsh u r * walsh v c) * x r c := by
  simp only [had8Grid_eq x u v hu hv, bf8_eq_sum _ hu, bf8_eq_sum _ hv, Finset.mul_sum, wrap16_mul, mul_assoc]

/-- The transform is the exact one of the signed values, reduced to 16 bits once. -/
theorem had8Grid_eq_wrap16_walsh8 (x : Nat → Nat → Half) {u v : Nat} (hu : u < 8) (hv : v < 8) :
    had8Grid x u v = wrap16 (walsh8 x u v) := by
  simp only [had8Grid_eq_sum x hu hv, walsh8, gridSum, wrap16_sum, wrap16_mul, wrap16_sext16]

/-- Settles O17: H8 · X · H8 is linear in X, and `wrap16` is a ring homomorphism. -/
theorem had8IsLinear : Obligations.Had8IsLinear := by
  intro a b x y u v hu hv
  simp only [had8Grid_eq_sum _ hu hv, wrap16_add, wrap16_mul, wrap16_sext16, Finset.mul_sum, ← Finset.sum_add_distrib]
  refine Finset.sum_congr rfl fun r _ => Finset.sum_congr rfl fun c _ => ?_
  ring

/-- Passes over the two indexes commute. -/
theorem bf8_swap (x : Nat → Nat → Half) {u v : Nat} (hu : u < 8) (hv : v < 8) :
    bf8 (fun r => bf8 (x r) v) u = bf8 (fun c => bf8 (fun r => x r c) u) v := by
  simp only [bf8_eq_sum _ hu, bf8_eq_sum _ hv, Finset.mul_sum]
  rw [Finset.sum_comm]
  refine Finset.sum_congr rfl fun c _ => Finset.sum_congr rfl fun r _ => ?_
  ring

/-- Settles O18: the passes commute, so that each dimension is transformed twice, which is 8 times in each. -/
theorem had8TwiceIsSixtyFourTimes : Obligations.Had8TwiceIsSixtyFourTimes := by
  intro x u v hu hv
  calc had8Grid (had8Grid x) u v
      = bf8 (fun r => bf8 (fun c => bf8 (fun r' => bf8 (x r') c) r) v) u := by
        rw [had8Grid_eq _ u v hu hv]
        exact bf8_congr _ _ (fun r hr => bf8_congr _ _ (fun c hc => had8Grid_eq x r c hr hc) v hv) u hu
    _ = bf8 (bf8 (fun r' => bf8 (bf8 (x r')) v)) u :=
        bf8_congr _ _ (fun r hr => (bf8_swap (fun r' => bf8 (x r')) hr hv).symm) u hu
    _ = 8 * (8 * x u v) := by rw [bf8_bf8 _ hu, bf8_bf8 _ hv]
    _ = wrap16 (64 * sext16 (x u v)) := by
        rw [wrap16_mul, wrap16_sext16, ← mul_assoc]
        rfl

/-- Settles O19: of the sum for one output only the term of the impulse is left. -/
theorem had8OfAnImpulse : Obligations.Had8OfAnImpulse := by
  refine ⟨fun r0 c0 u v hr0 hc0 hu hv => ?_, fun u v hu hv => ?_⟩
  · simp only [had8Grid_eq_sum _ hu hv, ite_and, mul_ite, mul_one, mul_zero, Finset.sum_ite_irrel, Finset.sum_const_zero,
      Finset.sum_ite_eq', Finset.mem_range, hr0, hc0, if_true]
  · simp [had8Grid_eq_sum _ hu hv]

/-! ## HAD8 as a command (42_hadamard8x8 R182 to R185) -/

theorem gridPositions_nodup (n : Nat) : (gridPositions n).Nodup := List.nodup_range.product List.nodup_range

/-- Where the stride is at least the number of columns, a place in a strided grid has one row and column. -/
theorem strided_inj {n r c r' c' : Nat} (hc : c < n) (hc' : c' < n) (h : r * n + c = r' * n + c') : r = r' ∧ c = c' := by
  have hpos : 0 < n := by omega
  have hrc := (Nat.div_mod_unique hpos).2 ⟨(by ring : c + n * r = r * n + c), hc⟩
  have hrc' := (Nat.div_mod_unique hpos).2 ⟨(by ring : c' + n * r' = r' * n + c'), hc'⟩
  rw [h] at hrc
  exact ⟨hrc.1.symm.trans hrc'.1, hrc.2.symm.trans hrc'.2⟩

/-- The elements of a strided coefficient grid do not overlap (20_memory R74, R78). -/
theorem coefElements_apart {L : Latch} {n : Nat} (hn : n ≤ L.stride.toNat) (b : Word) (f : Nat × Nat → Half) :
    ((gridPositions n).map fun p => (L.coefAddr b p.1 p.2, f p)).Pairwise
      (fun c d => c.1 + 2 ≤ d.1 ∨ d.1 + 2 ≤ c.1) := by
  rw [List.pairwise_map]
  refine (gridPositions_nodup n).pairwise_of_forall_ne fun p hp q hq hpq => ?_
  have hp2 : p.2 < L.stride.toNat := ((mem_gridPositions n p).1 hp).2.trans_le hn
  have hq2 : q.2 < L.stride.toNat := ((mem_gridPositions n q).1 hq).2.trans_le hn
  have hne : p.1 * L.stride.toNat + p.2 ≠ q.1 * L.stride.toNat + q.2 := fun h =>
    hpq (Prod.ext_iff.2 (strided_inj hp2 hq2 h))
  simp only [Latch.coefAddr]
  omega

/-- After the store phase each output element holds its transform of the grid in W. -/
theorem readHalf_had8Stores {m : Memory} {L : Latch} (hm : m.wf = true) (hs : 8 ≤ L.stride.toNat) (w : Work) {u v : Nat}
    (hu : u < 8) (hv : v < 8) :
    (m.storeHalves (had8Stores L w)).readHalf (L.coefAddr L.dst u v) = had8Grid (w.grid8 0) u v :=
  readHalf_storeHalves m (had8Stores L w) hm (coefElements_apart hs L.dst _) (_, _)
    (List.mem_map_of_mem ((mem_gridPositions 8 (u, v)).2 ⟨hu, hv⟩))

/-- What the transform of W after the load phase is. -/
theorem had8Grid_load8 (m : Memory) (L : Latch) (w : Work) {u v : Nat} (hu : u < 8) (hv : v < 8) :
    had8Grid ((load8 m L w).grid8 0) u v = wrap16 (walsh8 (coef m L L.src) u v) := by
  rw [had8Grid_congr _ (coef m L L.src) (fun r hr c hc => load8_grid m L w r c hr hc) u v hu hv]
  exact had8Grid_eq_wrap16_walsh8 _ hu hv

theorem mem_inputBytes_had8 (L : Latch) (a : Nat) :
    a ∈ inputBytes .had8 L ↔ ∃ r < 8, ∃ c < 8, ∃ b < 2, a = L.coefAddr L.src r c + b :=
  (mem_inputBytes .had8 L a).trans (mem_gridBytes 8 2 (L.coefAddr L.src) a)

theorem mem_outputBytes_had8 (L : Latch) (a : Nat) :
    a ∈ outputBytes .had8 L ↔ ∃ r < 8, ∃ c < 8, ∃ b < 2, a = L.coefAddr L.dst r c + b :=
  (mem_outputBytes .had8 L a).trans (mem_gridBytes 8 2 (L.coefAddr L.dst) a)

/-- The preconditions of HAD8 (20_memory R76 to R78). -/
theorem preFault_had8 {memAdmit : List Region} {L : Latch} (hsrc : L.src.toNat % 2 = 0) (hdst : L.dst.toNat % 2 = 0)
    (hs : 8 ≤ L.stride.toNat)
    (hin : ∀ r < 8, ∀ c < 8, ∀ b < 2, admits memAdmit (L.coefAddr L.src r c + b) = true ∧
      admits memAdmit (L.coefAddr L.dst r c + b) = true) : preFault memAdmit .had8 L = none := by
  refine (preFault_eq_none_iff _ _ _).2 ⟨by simp [alignedOk, hsrc, hdst], decide_eq_true hs, (boundsOk_iff _ _ _).2 ?_⟩
  simp only [mem_inputBytes_had8, mem_outputBytes_had8]
  rintro _ (⟨r, hr, c, hc, b, hb, rfl⟩ | ⟨r, hr, c, hc, b, hb, rfl⟩)
  · exact (hin r hr c hc b hb).1
  · exact (hin r hr c hc b hb).2

@[simp] theorem transformed_mem (s : State) (e : Inst) (m : Memory) : (s.transformed e m).mem = m := rfl

/-- HAD8 completes with its stores of the input as it stood. -/
theorem exec_had8 {s : State} {e : Inst} (he : s.insts[s.sel]? = some e) (hp : preFault s.memAdmit .had8 e.latch = none)
    (ho : s.ownershipOk s.sel .had8 e.latch) :
    exec .had8 s =
      .next (s.transformed e (s.mem.storeHalves (had8Stores e.latch (load8 s.mem e.latch e.work)))) := by
  rw [← had8Effect_eq]
  exact completion_of_ok .had8 s (had8Effect s) e he hp ho

/-- Settles O16: W holds the input before the first store, the output elements do not overlap, and no store reaches
beyond them. -/
theorem had8WritesTheTransform : Obligations.Had8WritesTheTransform := by
  intro s e he hm hsrc hdst hs hin ho
  have hdone := completedAs_transform .had8 s e _ (.inl rfl) (had8Stores_addr e.latch (load8 s.mem e.latch e.work))
  refine ⟨_, _, exec_had8 he (preFault_had8 hsrc hdst hs hin) ho, fun u hu v hv => ?_, fun a ha => ?_, hdone.state⟩
  · have hstored := readHalf_had8Stores hm hs (load8 s.mem e.latch e.work) hu hv
    rw [had8Grid_load8 s.mem e.latch e.work hu hv] at hstored
    rw [transformed_mem]
    exact hstored
  · refine hdone.frame a fun hmem => ?_
    obtain ⟨u, hu, v, hv, b, hb, rfl⟩ := (mem_outputBytes_had8 _ _).1 hmem
    exact ha u hu v hv b hb rfl

end Sys2Proof.Machine
end

section
/-! Family 43_hadamard16x16: phase 1 gives the transforms of the four quadrants, phase 2 their product with H4, halved
once. H16 is built of H8 and the signs of the quadrants, so that without wrapping this is the 16×16 transform. HAD16 as a
command stores it tile after tile. -/

namespace Sys2Proof.Machine

open Sys2Proof

/-! ## The two phases on a grid (43_hadamard16x16 R201 to R203) -/

/-- W with a 16×16 grid in it, as the load phase leaves it (log 24). -/
def Work.ofGrid (x : Nat → Nat → Half) : Work := Work.ofFn (fun n => x (n / 16) (n % 16))

theorem load16_eq_ofGrid (m : Memory) (L : Latch) : load16 m L = Work.ofGrid (coef m L L.src) := rfl

theorem grid16_ofGrid (x : Nat → Nat → Half) {r c : Nat} (hr : r < 16) (hc : c < 16) :
    (Work.ofGrid x).grid16 r c = x r c := by
  rw [Work.grid16, Work.ofGrid, ofFn_entry _ _ (by omega), show (16 * r + c) / 16 = r by omega,
    show (16 * r + c) % 16 = c by omega]

/-- After phase 1 a tile is the transform of its quadrant. -/
theorem phase1_ofGrid (x : Nat → Nat → Half) {q u v : Nat} (hq : q < 4) (hu : u < 8) (hv : v < 8) :
    (phase1 (Work.ofGrid x)).grid8 (64 * q) u v = had8Grid (tile x q) u v := by
  rw [phase1_grid _ q u v hq hu hv]
  exact had8Grid_congr _ _ (fun r hr c hc => grid16_ofGrid x (by omega) (by omega)) u v hu hv

/-- Phase 2 on the transforms of the quadrants. -/
theorem phase2_phase1_ofGrid (x : Nat → Nat → Half) (q : Nat) {u v : Nat} (hu : u < 8) (hv : v < 8) :
    phase2 (phase1 (Work.ofGrid x)) q u v =
      wrap16 (combine q (sext16 (had8Grid (tile x 0) u v)) (sext16 (had8Grid (tile x 1) u v))
        (sext16 (had8Grid (tile x 2) u v)) (sext16 (had8Grid (tile x 3) u v)) / 2) := by
  simp only [← phase1_ofGrid x (by decide : 0 < 4) hu hv, ← phase1_ofGrid x (by decide : 1 < 4) hu hv,
    ← phase1_ofGrid x (by decide : 2 < 4) hu hv, ← phase1_ofGrid x (by decide : 3 < 4) hu hv]
  rfl

/-- The four sums are the product with H4 (R203). -/
theorem combine_eq_sum (a : Nat → Int) {q : Nat} (hq : q < 4) :
    combine q (a 0) (a 1) (a 2) (a 3) = ∑ j ∈ Finset.range 4, walsh q j * a j := by
  interval_cases q <;> simp [combine, Finset.sum_range_succ, walsh_eq_bits] <;> ring

theorem phase2_phase1_eq_sum (x : Nat → Nat → Half) {q u v : Nat} (hq : q < 4) (hu : u < 8) (hv : v < 8) :
    phase2 (phase1 (Work.ofGrid x)) q u v =
      wrap16 ((∑ j ∈ Finset.range 4, walsh q j * sext16 (wrap16 (walsh8 (tile x j) u v))) / 2) := by
  rw [phase2_phase1_ofGrid x q hu hv, combine_eq_sum (fun j => sext16 (had8Grid (tile x j) u v)) hq]
  simp only [had8Grid_eq_wrap16_walsh8 _ hu hv]

/-- Settles O21: the bounds of the four 16-bit values, in each of the four sums. -/
theorem phaseTwoSumsFitEighteenBits : Obligations.PhaseTwoSumsFitEighteenBits := by
  intro t a0 a1 a2 a3
  have h0 := sext16_bounds a0
  have h1 := sext16_bounds a1
  have h2 := sext16_bounds a2
  have h3 := sext16_bounds a3
  unfold combine
  split <;> omega

/-- A quadrant of a strided grid is a strided grid from the quadrant's own base (R208). -/
theorem coef_quadrant (m : Memory) {L Q : Latch} {q : Nat} (hstride : Q.stride = L.stride)
    (hsrc : Q.src.toNat = L.src.toNat + 2 * (8 * (q / 2) * L.stride.toNat + 8 * (q % 2))) :
    coef m Q Q.src = tile (coef m L L.src) q := by
  funext r c
  simp only [coef, tile, Latch.coefAddr, hstride, hsrc]
  ring_nf

/-- Settles O23: phase 1 transforms the quadrant, and the quadrant is a grid of the same stride. -/
theorem phaseOneTilesAreHad8OfQuadrants : Obligations.PhaseOneTilesAreHad8OfQuadrants := by
  intro m L Q q u v hq hu hv hstride hsrc
  rw [load16_eq_ofGrid, phase1_ofGrid _ hq hu hv, coef_quadrant m hstride hsrc]

/-! ## The order-16 matrix in quadrants (R206) -/

/-- H16 is H8 in each quadrant, with the sign of the quadrant. -/
theorem walsh_quadrant : ∀ p < 2, ∀ a < 2, ∀ u < 8, ∀ r < 8, walsh (8 * p + u) (8 * a + r) = walsh p a * walsh u r := by
  decide

/-- H4, over the numbers of the quadrants, is made of the signs of their rows and of their columns. -/
theorem walsh_eq_quadrant_signs : ∀ q < 4, ∀ j < 4, walsh q j = walsh (q / 2) (j / 2) * walsh (q % 2) (j % 2) := by
  decide

/-- A sum over the 16×16 grid, quadrant by quadrant. -/
theorem gridSum_quadrants (f : Nat → Nat → Int) :
    gridSum 16 f = ∑ j ∈ Finset.range 4, gridSum 8 (fun r c => f (8 * (j / 2) + r) (8 * (j % 2) + c)) := by
  simp only [gridSum, Finset.sum_range_add _ 8 8, Finset.sum_add_distrib, Finset.sum_range_succ _ 3,
    Finset.sum_range_succ _ 2, Finset.sum_range_succ _ 1, Finset.sum_range_one, Nat.reduceDiv, Nat.reduceMod,
    Nat.reduceMul, zero_add]
  ring

/-- The 16×16 transform is the product of the quadrants' transforms with H4. -/
theorem walsh16_eq_sum_walsh8 (x : Nat → Nat → Half) {q u v : Nat} (hq : q < 4) (hu : u < 8) (hv : v < 8) :
    walsh16 x (8 * (q / 2) + u) (8 * (q % 2) + v) = ∑ j ∈ Finset.range 4, walsh q j * walsh8 (tile x j) u v := by
  rw [walsh16, gridSum_quadrants]
  refine Finset.sum_congr rfl fun j hj => ?_
  have hj : j < 4 := Finset.mem_range.1 hj
  simp only [walsh8, gridSum, Finset.mul_sum]
  refine Finset.sum_congr rfl fun r hr => Finset.sum_congr rfl fun c hc => ?_
  rw [walsh_quadrant _ (by omega) _ (by omega) u hu r (Finset.mem_range.1 hr),
    walsh_quadrant _ (by omega) _ (by omega) v hv c (Finset.mem_range.1 hc), walsh_eq_quadrant_signs q hq j hj, tile]
  ring

/-- Settles O22: a tile value that does not wrap is exact, and then the exact sum is that of H16. -/
theorem had16IsTheHalvedWalshTransform : Obligations.Had16IsTheHalvedWalshTransform := by
  intro x hfits q hq u hu v hv
  have hexact : ∀ j ∈ Finset.range 4, walsh q j * sext16 (wrap16 (walsh8 (tile x j) u v)) =
      walsh q j * walsh8 (tile x j) u v := by
    intro j hj
    obtain ⟨hlow, hhigh⟩ := abs_le.1 (hfits j (Finset.mem_range.1 hj) u hu v hv)
    rw [sext16_wrap16 _ (by omega) (by omega)]
  calc phase2 (phase1 (Work.ofGrid x)) q u v
      = wrap16 ((∑ j ∈ Finset.range 4, walsh q j * sext16 (wrap16 (walsh8 (tile x j) u v))) / 2) :=
        phase2_phase1_eq_sum x hq hu hv
    _ = wrap16 (walsh16 x (8 * (q / 2) + u) (8 * (q % 2) + v) / 2) := by
        rw [Finset.sum_congr rfl hexact, walsh16_eq_sum_walsh8 x hq hu hv]

/-! ## Where the shift sits (R209) -/

/-- The grid with 1 at (0, 0) and at (8, 0). -/
def twoImpulses (r c : Nat) : Half := if 16 * r + c = 0 ∨ 16 * r + c = 128 then 1 else 0

theorem ofGrid_twoImpulses : Work.ofGrid twoImpulses = Work.ofFn (fun n => if n = 0 ∨ n = 128 then 1 else 0) := by
  simp only [Work.ofGrid, twoImpulses, Nat.div_add_mod]

/-- The first column of the matrix is all 1. -/
theorem walsh_zero_right (k : Nat) : walsh k 0 = 1 := by
  rw [walsh, Nat.and_zero]
  rfl

/-- An impulse at (0, 0) gives 1 everywhere. -/
theorem had8Grid_impulse {u v : Nat} (hu : u < 8) (hv : v < 8) :
    had8Grid (fun r c => if r = 0 ∧ c = 0 then 1 else 0) u v = 1 := by
  obtain ⟨himpulse, -⟩ := had8OfAnImpulse
  rw [himpulse 0 0 u v (by decide) (by decide) hu hv, walsh_zero_right, walsh_zero_right]
  rfl

/-- The left quadrants have an impulse at their place (0, 0), the right ones are zero. -/
theorem had8Grid_tile_twoImpulses {q u v : Nat} (hq : q < 4) (hu : u < 8) (hv : v < 8) :
    had8Grid (tile twoImpulses q) u v = if q % 2 = 0 then 1 else 0 := by
  obtain ⟨-, hzero⟩ := had8OfAnImpulse
  split
  next hleft =>
    rw [← had8Grid_impulse hu hv]
    refine had8Grid_congr _ _ (fun r hr c hc => ?_) u v hu hv
    exact if_congr (by omega) rfl rfl
  next hright =>
    rw [← hzero u v hu hv]
    refine had8Grid_congr _ _ (fun r hr c hc => ?_) u v hu hv
    exact if_neg (by omega)

/-- Settles O24: the tile values are 1, 0, 1, 0, whose four sums are 2, 2, 0, 0. -/
theorem rescaleComesAfterTheCombination : Obligations.RescaleComesAfterTheCombination := by
  intro q hq u hu v hv
  rw [← ofGrid_twoImpulses, phase2_phase1_ofGrid _ q hu hv]
  simp only [had8Grid_tile_twoImpulses, hu, hv, Nat.reduceLT, Nat.reduceMod, reduceIte, one_ne_zero]
  interval_cases q <;> rfl

/-! ## HAD16 as a command (R200, R204) -/

theorem tilePositions_nodup : tilePositions.Nodup :=
  (List.nodup_range : (List.range 4).Nodup).product (gridPositions_nodup 8)

/-- The elements of the tile-major output do not overlap (20_memory R75). -/
theorem tileElements_apart (L : Latch) (f : Nat × Nat × Nat → Half) :
    (tilePositions.map fun p => (L.tileAddr p.1 p.2.1 p.2.2, f p)).Pairwise
      (fun c d => c.1 + 2 ≤ d.1 ∨ d.1 + 2 ≤ c.1) := by
  rw [List.pairwise_map]
  refine tilePositions_nodup.pairwise_of_forall_ne fun p hp q hq hpq => ?_
  obtain ⟨-, hpu, hpv⟩ := (mem_tilePositions p).1 hp
  obtain ⟨-, hqu, hqv⟩ := (mem_tilePositions q).1 hq
  have hne : ¬ (p.1 = q.1 ∧ p.2.1 = q.2.1 ∧ p.2.2 = q.2.2) := fun h =>
    hpq (Prod.ext h.1 (Prod.ext h.2.1 h.2.2))
  simp only [Latch.tileAddr, Config.tilePitch]
  omega

/-- After the store phase each output element holds what phase 2 gives for it. -/
theorem readHalf_had16Stores {m : Memory} (L : Latch) (hm : m.wf = true) (w : Work) {q u v : Nat} (hq : q < 4)
    (hu : u < 8) (hv : v < 8) :
    (m.storeHalves (had16Stores L w)).readHalf (L.tileAddr q u v) = phase2 w q u v :=
  readHalf_storeHalves m (had16Stores L w) hm (tileElements_apart L _) (_, _)
    (List.mem_map_of_mem ((mem_tilePositions (q, u, v)).2 ⟨hq, hu, hv⟩))

theorem mem_inputBytes_had16 (L : Latch) (a : Nat) :
    a ∈ inputBytes .had16 L ↔ ∃ r < 16, ∃ c < 16, ∃ b < 2, a = L.coefAddr L.src r c + b :=
  (mem_inputBytes .had16 L a).trans (mem_gridBytes 16 2 (L.coefAddr L.src) a)

theorem mem_outputBytes_had16 (L : Latch) (a : Nat) :
    a ∈ outputBytes .had16 L ↔ L.dst.toNat ≤ a ∧ a < L.dst.toNat + 512 :=
  (mem_outputBytes .had16 L a).trans (mem_tileBytes L a)

/-- The preconditions of HAD16 (20_memory R76 to R78). -/
theorem preFault_had16 {memAdmit : List Region} {L : Latch} (hsrc : L.src.toNat % 2 = 0) (hdst : L.dst.toNat % 2 = 0)
    (hs : 16 ≤ L.stride.toNat)
    (hin : ∀ r < 16, ∀ c < 16, ∀ b < 2, admits memAdmit (L.coefAddr L.src r c + b) = true)
    (hout : ∀ n < 512, admits memAdmit (L.dst.toNat + n) = true) : preFault memAdmit .had16 L = none := by
  refine (preFault_eq_none_iff _ _ _).2 ⟨by simp [alignedOk, hsrc, hdst], decide_eq_true hs, (boundsOk_iff _ _ _).2 ?_⟩
  simp only [mem_inputBytes_had16, mem_outputBytes_had16, between_iff_exists_lt]
  rintro _ (⟨r, hr, c, hc, b, hb, rfl⟩ | ⟨n, hn, rfl⟩)
  · exact hin r hr c hc b hb
  · exact hout n hn

/-- HAD16 completes with its stores of the input as it stood. -/
theorem exec_had16 {s : State} {e : Inst} (he : s.insts[s.sel]? = some e)
    (hp : preFault s.memAdmit .had16 e.latch = none) (ho : s.ownershipOk s.sel .had16 e.latch) :
    exec .had16 s =
      .next (s.transformed e (s.mem.storeHalves (had16Stores e.latch (phase1 (load16 s.mem e.latch))))) := by
  rw [← had16Effect_eq]
  exact completion_of_ok .had16 s (had16Effect s) e he hp ho

/-- Settles O20: W holds the input before the first store, the output elements do not overlap, and together they are the
512 bytes that may change. -/
theorem had16WritesTheCombinedTiles : Obligations.Had16WritesTheCombinedTiles := by
  intro s e he hm hsrc hdst hs hin hout ho
  have hdone := completedAs_transform .had16 s e _ (.inr rfl) (had16Stores_addr e.latch (phase1 (load16 s.mem e.latch)))
  refine ⟨_, _, exec_had16 he (preFault_had16 hsrc hdst hs hin hout) ho, fun q hq u hu v hv => ?_, fun a ha => ?_,
    hdone.state⟩
  · rw [transformed_mem]
    exact (readHalf_had16Stores e.latch hm _ hq hu hv).trans
      (phase2_phase1_eq_sum (coef s.mem e.latch e.latch.src) hq hu hv)
  · refine hdone.frame a fun hmem => ?_
    obtain ⟨hlow, hhigh⟩ := (mem_outputBytes_had16 _ _).1 hmem
    omega

end Sys2Proof.Machine
end

section
/-! Family 60_exceptions: a step reaches one unit, and whether a completion goes on is settled without looking at the
values it computes with. -/

namespace Sys2Proof.Machine

open Sys2Proof

/-! ## What a step leaves of the other units (60_exceptions R231) -/

/-- The units after a step: as they were, or one of them replaced by a unit with the same window. No step changes the
extent of the ordinary memory (log 4). -/
theorem step_units_and_memAdmit {s t : State} (h : step s = .next t) : t.memAdmit = s.memAdmit ∧
    (t.insts = s.insts ∨ ∃ k e f, s.insts[k]? = some e ∧ f.base = e.base ∧ t.insts = s.insts.set k f) := by
  cases step_next s t h with
  | host _ hd =>
    cases hd with
    | quiet v hs ht => exact ht ▸ ⟨rfl, .inl rfl⟩
    | memory addr n v rest _ _ _ ht => exact ht ▸ ⟨rfl, .inl rfl⟩
    | window addr v k e f rest _ _ hk _ w ht => exact ht ▸ ⟨rfl, .inr ⟨k, e, f, hk, w.base_eq, rfl⟩⟩
  | nothing _ _ _ ht => exact ht ▸ ⟨rfl, .inl rfl⟩
  | completion k e f _ hk _ _ _ hc => exact ⟨hc.memAdmit_eq, .inr ⟨k, e, f, hk, hc.base_eq, hc.insts_eq⟩⟩
  | resetIdle k e _ hk _ ht => exact ht ▸ ⟨rfl, .inr ⟨k, e, Inst.reset e.base, hk, rfl, rfl⟩⟩
  | resetBusy k e _ hk _ ht => exact ht ▸ ⟨rfl, .inr ⟨k, e, Inst.reset e.base, hk, rfl, rfl⟩⟩

/-- Replacing a unit by one with the same window leaves every window where it was. -/
theorem map_base_set {l : List Inst} {k : Nat} {e f : Inst} (hk : l[k]? = some e) (hb : f.base = e.base) :
    (l.set k f).map Inst.base = l.map Inst.base := by
  obtain ⟨hlt, rfl⟩ := List.getElem?_eq_some_iff.1 hk
  rw [List.map_set, hb, ← List.getElem_map Inst.base (h := by simpa using hlt), List.set_getElem_self]

/-- Settles O36, by whether the step replaced a unit. -/
theorem stepTouchesAtMostOneUnit : Obligations.StepTouchesAtMostOneUnit := by
  intro s t h
  obtain ⟨hadmit, hsame | ⟨k, e, f, hk, hb, hset⟩⟩ := step_units_and_memAdmit h
  · exact ⟨⟨0, fun j _ => by rw [hsame]⟩, by rw [hsame], hadmit⟩
  · refine ⟨⟨k, fun j hj => ?_⟩, ?_, hadmit⟩
    · rw [hset, List.getElem?_set_ne (Ne.symm hj)]
    · rw [hset, map_base_set hk hb]

/-! ## What a completion's going on rests on (60_exceptions R223) -/

/-- No element's address depends on the latched operand (20_memory R73, R74). -/
theorem inputBytes_operand (i : Instr) (L : Latch) (x : Half) :
    inputBytes i { L with operand := x } = inputBytes i L := by
  cases i <;> rfl

theorem outputBytes_operand (i : Instr) (L : Latch) (x : Half) :
    outputBytes i { L with operand := x } = outputBytes i L := by
  cases i <;> rfl

theorem preFault_operand_eq_none_iff (memAdmit : List Region) (i : Instr) (L : Latch) (x : Half) :
    preFault memAdmit i { L with operand := x } = none ↔ preFault memAdmit i L = none := by
  have hnone := preFault_isNone_congr memAdmit i { L with operand := x } L rfl rfl rfl
  rw [← Option.isNone_iff_eq_none, hnone, Option.isNone_iff_eq_none]

theorem ownershipOk_operand_iff (s : State) (k : Nat) (i : Instr) (L : Latch) (x : Half) :
    s.ownershipOk k i { L with operand := x } ↔ s.ownershipOk k i L := by
  rw [State.ownershipOk, inputBytes_operand, outputBytes_operand, ← State.ownershipOk]

/-- The ownership that bounds unit k is that of the other units, whatever unit k and memory hold (20_memory R88). -/
theorem ownershipOk_of_other_units {s t : State} {k : Nat} {i : Instr} {L : Latch}
    (h : ∀ j, j ≠ k → t.insts[j]? = s.insts[j]?) (ho : s.ownershipOk k i L) : t.ownershipOk k i L :=
  fun j e hj hjk => ho j e (h j hjk ▸ hj) hjk

/-- Settles O45: the preconditions and the ownership, all that a completion checks, are met as before. -/
theorem overflowIsNoFault : Obligations.OverflowIsNoFault := by
  intro s t e i m x w he h
  obtain ⟨d, -, hd, hp, ho, -⟩ := exec_next i s t h
  obtain rfl : e = d := Option.some.inj (he.symm.trans hd)
  have hlt : s.sel < s.insts.length := (List.getElem?_eq_some_iff.1 he).1
  refine exec_of_ok i _ { e with latch := { e.latch with operand := x }, work := w } (List.getElem?_set_self hlt) ?_ ?_
  · exact (preFault_operand_eq_none_iff _ _ _ _).2 hp
  · refine (ownershipOk_operand_iff _ _ _ _ _).2 (ownershipOk_of_other_units (fun j hj => ?_) ho)
    exact List.getElem?_set_ne (Ne.symm hj)

end Sys2Proof.Machine
end

section
/-! Family 70_reset_and_hazards: what a completion computes does not rest on the registers, and a reset of a unit at any
time. -/

namespace Sys2Proof.Machine

open Sys2Proof

/-! ## What a completion computes with (70_reset R256) -/

/-- What a completion computes: the memory it leaves, the count of free values, and RESULT, W and ACC of its unit. -/
structure Computed where
  mem : Memory
  fresh : Nat
  result : Half
  work : Work
  acc : Half

/-- What command `i` computes, from memory, the count of free values, and the latch, RESULT, W and ACC of its unit.
SRC, DST, STRIDE and OPERAND are not among what it is given. -/
def compute (i : Instr) (m : Memory) (n : Nat) (L : Latch) (y : Half) (w : Work) (acc : Half) : Computed :=
  let average (size sh : Nat) : Computed :=
    ⟨m, n, wrap16 (shrRound (zext (accumulate m L size)) sh), w, accumulate m L size⟩
  let transform (stores : List (Nat × Half)) : Computed := ⟨m.storeHalves stores, n + 1, y, Config.freeWork n, acc⟩
  let shift (z : Half) : Computed := ⟨m, n, z, w, acc⟩
  match i with
  | .avg4 => average 4 4
  | .avg8 => average 8 6
  | .had8 => transform (had8Stores L (load8 m L w))
  | .had16 => transform (had16Stores L (phase1 (load16 m L)))
  | .shl sh => shift (shlWrap16 (zext L.operand) sh)
  | .shr sh => shift (wrap16 (shrFloor (zext L.operand) sh))
  | .shrr sh => shift (wrap16 (shrRound (zext L.operand) sh))
  | .sra sh => shift (wrap16 (shrFloor (sext16 L.operand) sh))
  | .srar sh => shift (wrap16 (shrRound (sext16 L.operand) sh))

/-- The unit after a completion that computed `c`. -/
def Inst.completedWith (e : Inst) (c : Computed) : Inst :=
  { e with phase := .idle, done := true, result := c.result, work := c.work, acc := c.acc }

/-- The state after a completion that computed `c` on the selected unit, which was `e`. -/
def State.completedWith (s : State) (e : Inst) (c : Computed) : State :=
  { s with mem := c.mem, fresh := c.fresh, insts := s.insts.set s.sel (e.completedWith c) }

/-- Every command's completion, through what it computes. -/
theorem exec_eq_compute (i : Instr) (s : State) : exec i s =
    completion i s (fun e => s.completedWith e (compute i s.mem s.fresh e.latch e.result e.work e.acc)) := by
  cases i with
  | avg4 | avg8 | had8 | had16 | shl sh | shr sh | shrr sh | sra sh | srar sh => rfl

/-- A completion that faults met a precondition's fault, or the first conflict with another unit's ownership. -/
theorem exec_fault {i : Instr} {s : State} {x : Fault} (h : exec i s = .fault x) : ∃ e, s.insts[s.sel]? = some e ∧
    (preFault s.memAdmit i e.latch = some x ∨
      preFault s.memAdmit i e.latch = none ∧ ∃ a, s.engineConflict s.sel i e.latch = some a ∧ x = .mf4 a) := by
  rw [exec_eq_compute] at h
  rcases completion_cases i s _ with ⟨-, hc⟩ | ⟨e, he, ⟨f, hp, hc⟩ | ⟨a, hp, ha, hc⟩ | ⟨-, -, hc⟩⟩
  · exact nomatch hc.symm.trans h
  · obtain rfl : f = x := Host.Outcome.fault.inj (hc.symm.trans h)
    exact ⟨e, he, .inl hp⟩
  · exact ⟨e, he, .inr ⟨hp, a, ha, (Host.Outcome.fault.inj (hc.symm.trans h)).symm⟩⟩
  · exact nomatch hc.symm.trans h

/-- The ownership that bounds unit k is that of the others: what stands at place k does not matter (20_memory R88). -/
theorem engineConflict_setUnit (s : State) (k : Nat) (e : Inst) (i : Instr) (L : Latch) :
    (s.setUnit k e).engineConflict k i L = s.engineConflict k i L := by
  simp only [State.engineConflict, State.otherUnits, setUnit_insts, List.eraseIdx_set_eq]

/-- The completion overwrites the selected unit, whatever registers were put there before. -/
theorem completedWith_setUnit (s : State) (e d : Inst) (c : Computed) :
    (s.setUnit s.sel d).completedWith d c = (s.completedWith e c).setUnit s.sel (d.completedWith c) := by
  simp [State.completedWith, State.setUnit]

/-- Settles O44: the checks and the computation are given the latch, which is the same with any registers beside it. -/
theorem registersMayBeRewrittenWhileBusy : Obligations.RegistersMayBeRewrittenWhileBusy := by
  intro s e i src dst stride operand he s'
  have hlt : s.sel < s.insts.length := (List.getElem?_eq_some_iff.1 he).1
  have he' : s'.insts[s'.sel]? = some { e with src := src, dst := dst, stride := stride, operand := operand } :=
    List.getElem?_set_self hlt
  have hconflict : s'.engineConflict s.sel i e.latch = s.engineConflict s.sel i e.latch :=
    engineConflict_setUnit s s.sel _ i e.latch
  refine ⟨fun t h => ?_, fun x h => ?_⟩
  · rw [exec_eq_compute] at h
    obtain ⟨d, hd, hp, ho, rfl⟩ := completion_next i s t _ h
    obtain rfl : e = d := Option.some.inj (he.symm.trans hd)
    have ho' : s'.ownershipOk s'.sel i e.latch := by
      rw [← engineConflict_eq_none_iff] at ho ⊢
      exact hconflict.trans ho
    refine ⟨_, List.getElem?_set_self hlt, rfl, rfl, rfl, rfl, ?_⟩
    rw [exec_eq_compute, completion_of_ok i s' _ _ he' hp ho']
    exact congrArg _ (completedWith_setUnit s e _ _)
  · obtain ⟨d, hd, hfault⟩ := exec_fault h
    obtain rfl : e = d := Option.some.inj (he.symm.trans hd)
    rcases hfault with hp | ⟨hp, a, ha, rfl⟩
    · exact exec_of_preFault i s' _ x he' hp
    · exact exec_of_conflict i s' _ a he' hp (hconflict.trans ha)

/-! ## Reset (70_reset R250, R251) -/

/-- A byte of the aborted output holds the free value that was drawn for it last. -/
theorem read_scramble_of_mem (m : Memory) (n : Nat) (as : List Nat) (hm : m.wf = true) {a : Nat} (ha : a ∈ as) :
    ∃ j, n ≤ j ∧ (m.scramble n as).read a = Config.freeByte j := by
  induction as generalizing m n with
  | nil => exact absurd ha List.not_mem_nil
  | cons b as ih =>
    by_cases hlater : a ∈ as
    · obtain ⟨j, hj, hread⟩ := ih (m.write b (Config.freeByte n)) (n + 1) (write_wf _ _ _ hm) hlater
      exact ⟨j, by omega, hread⟩
    · obtain rfl : a = b := (List.mem_cons.1 ha).resolve_right hlater
      refine ⟨n, le_rfl, ?_⟩
      rw [Memory.scramble, read_scramble_other _ _ _ _ hlater, read_write_same _ _ _ hm]

/-- Settles O50, by whether the unit was running a command. -/
theorem resetAbortsTheRunningCommand : Obligations.ResetAbortsTheRunningCommand := by
  intro s k e hi hm hk
  have hstep := step_reset s k hm
  rcases resetUnit_cases s.turnUsed k with ⟨hn, -⟩ | ⟨d, hd, hc⟩
  · exact nomatch hn.symm.trans hk
  obtain rfl : d = e := Option.some.inj (hd.symm.trans hk)
  refine ⟨_, Inst.reset d.base, hstep, rfl, ?_⟩
  rcases hc with ⟨hidle, hc⟩ | ⟨hbusy, hc⟩
  · rw [hc]
    exact ⟨rfl, fun _ => rfl, fun _ _ => rfl, fun hbusy => nomatch hidle.symm.trans hbusy⟩
  · rw [hc]
    obtain ⟨hwf, -⟩ := hi
    exact ⟨rfl, fun hidle => (nomatch hbusy.symm.trans hidle), fun a ha => read_scramble_other _ _ _ a ha,
      fun _ a ha => read_scramble_of_mem s.mem s.fresh _ hwf ha⟩

end Sys2Proof.Machine
end
